-- ==== Sys2Proof/Word.lean ====
section
/-! DEFINITION. The word types of the machine (00_scope.md R8): data and instruction bytes, 4-bit addresses,
16-bit control words and 11-bit ROM word addresses. All values are unsigned (00_scope.md R11). -/

namespace Sys2Proof

/-- DATA_W = 8: A, B, IR, the bus and a RAM byte (R8). -/
abbrev Byte := BitVec 8

/-- ADDR_W = 4: PC and MAR (R8). -/
abbrev Nibble := BitVec 4

/-- CW_W = 16: one control word of the microcode ROM (R8, R81). -/
abbrev ControlWord := BitVec 16

/-- The 11-bit ROM word address `(IR << 3) | step` (30_encoding.md R85). -/
abbrev RomAddr := BitVec 11

end Sys2Proof
end

