-- ==== Sys2Proof/Config.lean ====
section
/-! DEFINITION. The parameters the spec leaves open (00_scope.md R9), each a field with the spec's default, the free
values, and the two ROM fixtures of the spec (44_macro_instructions.md R188, R198) as control words. -/

namespace Sys2Proof

/-- SIGBIT: the bit position of each of the 15 control signals in a control word (30_encoding.md R82). The defaults are
the spec's (92_eei_decisions.md D1, listing order); the source gives none. Injectivity is `SigBit.wf`. -/
structure SigBit where
  pcOut : Fin 16 := 0
  ramOut : Fin 16 := 1
  irOut : Fin 16 := 2
  aOut : Fin 16 := 3
  bOut : Fin 16 := 4
  aluOut : Fin 16 := 5
  marIn : Fin 16 := 6
  ramIn : Fin 16 := 7
  irIn : Fin 16 := 8
  aIn : Fin 16 := 9
  bIn : Fin 16 := 10
  pcInc : Fin 16 := 11
  aluSub : Fin 16 := 12
  flagsIn : Fin 16 := 13
  halt : Fin 16 := 14
  deriving DecidableEq, Repr

/-- CONTENTION: what two asserted bus sources do (42_signal_execution.md R143, D7). -/
inductive Contention where
  /-- The spec's default: the micro-step has no next state. -/
  | fault
  /-- The named alternative: the bus takes the value of one asserted source, chosen freely at each occurrence. -/
  | anyAssertedSource
  deriving DecidableEq, Repr

/-- FLAGS_WITHOUT_ALU_OUT: what FLAGS_IN does in a word without ALU_OUT (43_alu_flags.md R177, D8). -/
inductive FlagsWithoutAluOut where
  /-- The spec's default: latch the combinational ALU's carry and zero. -/
  | latch
  /-- The named alternative: the word has no meaning. -/
  | refuse
  deriving DecidableEq, Repr

/-- The open parameters of the decoder and the datapath (R9). Fixed for a run: no step changes them. -/
structure Config where
  sigbit : SigBit := {}
  contention : Contention := .fault
  flagsWithoutAluOut : FlagsWithoutAluOut := .latch
  deriving DecidableEq, Repr

/-- FREE VALUE (log 10): which of the asserted sources wins the `n`-th contention under CONTENTION =
any-asserted-source ("chosen freely at each occurrence", R143). It has no body, so no proof can see a value of it;
it is used modulo the number of asserted sources. -/
opaque Config.freeSource (n : Nat) : Nat

/-- FREE VALUE (log 15): the Clock's edge-reference time after a tick that fired an edge, from the old reference, the
present time and the period. The source does not say whether it is the present time or the old reference advanced by
half a period (91_not_in_source.md N14). -/
opaque Config.edgeRefAfterTick (old now period : Rat) : Rat

/-- The reset values the spec lets a model take as launch parameters (R9: RESET_A, RESET_B, RESET_IR, RESET_MAR, RESET_C,
RESET_Z, RESET_BUS, RESET_RAM), with the spec's defaults (D3; log 1, log 2). RAM as (address, byte) pairs. -/
structure ResetValues where
  a : Byte := 0
  b : Byte := 0
  ir : Byte := 0
  mar : Nibble := 0
  flagC : Bool := false
  flagZ : Bool := false
  bus : Byte := 0
  ram : List (Nat × BitVec 8) := []
  deriving DecidableEq, Repr

/-- REFROM (44_macro_instructions.md R188) under the default SIGBIT: (word address, control word), every other word
0x0000. The spec's own fixture, not the MinimumCompute ROM. -/
def Config.refrom : List (Nat × ControlWord) :=
  [(0x08, 0x4000#16)] ++                                          -- 0x01 HLT
  [(0x10, 0x0041#16), (0x11, 0x0A02#16)] ++                       -- 0x02 LDI_A
  [(0x18, 0x0041#16), (0x19, 0x0C02#16)] ++                       -- 0x03 LDI_B
  [(0x30, 0x0041#16), (0x31, 0x0842#16), (0x32, 0x0088#16)] ++    -- 0x06 STA
  [(0x40, 0x2220#16)] ++                                          -- 0x08 ADD
  [(0x78, 0x0008#16)]                                             -- 0x0F OUT

/-- TESTROM (44_macro_instructions.md R198): REFROM plus LDA, SUB, CMP and BAD. -/
def Config.testrom : List (Nat × ControlWord) :=
  [(0x08, 0x4000#16)] ++
  [(0x10, 0x0041#16), (0x11, 0x0A02#16)] ++
  [(0x18, 0x0041#16), (0x19, 0x0C02#16)] ++
  [(0x20, 0x0041#16), (0x21, 0x0842#16), (0x22, 0x0202#16)] ++    -- 0x04 LDA
  [(0x30, 0x0041#16), (0x31, 0x0842#16), (0x32, 0x0088#16)] ++
  [(0x40, 0x2220#16)] ++
  [(0x48, 0x3220#16)] ++                                          -- 0x09 SUB
  [(0x50, 0x3000#16)] ++                                          -- 0x0A CMP
  [(0x58, 0x0018#16)] ++                                          -- 0x0B BAD
  [(0x78, 0x0008#16)]

end Sys2Proof
end

