-- ==== Sys2Proof/Syntax.lean ====
section
/-! DEFINITION. The closed list of 15 control signals (40_control_word_decode.md R110), a decoded signal set as a record
of 15 booleans (R111), and `Instr`, one constructor per row of spec/opcode_table.json. -/

namespace Sys2Proof

/-- The 15 control signals; the set is closed (R110). Six sources (`*_OUT`), five sinks (`*_IN`), PC_INC, ALU_SUB,
FLAGS_IN, HALT. -/
inductive Signal where
  | pcOut
  | ramOut
  | irOut
  | aOut
  | bOut
  | aluOut
  | marIn
  | ramIn
  | irIn
  | aIn
  | bIn
  | pcInc
  | aluSub
  | flagsIn
  | halt
  deriving DecidableEq, Repr

/-- A decoded signal set: which signals a control word asserts (R111). -/
structure SignalSet where
  pcOut : Bool := false
  ramOut : Bool := false
  irOut : Bool := false
  aOut : Bool := false
  bOut : Bool := false
  aluOut : Bool := false
  marIn : Bool := false
  ramIn : Bool := false
  irIn : Bool := false
  aIn : Bool := false
  bIn : Bool := false
  pcInc : Bool := false
  aluSub : Bool := false
  flagsIn : Bool := false
  halt : Bool := false
  deriving DecidableEq, Repr

/-- Whether the set asserts the signal. -/
def SignalSet.get (o : SignalSet) : Signal → Bool
  | .pcOut => o.pcOut
  | .ramOut => o.ramOut
  | .irOut => o.irOut
  | .aOut => o.aOut
  | .bOut => o.bOut
  | .aluOut => o.aluOut
  | .marIn => o.marIn
  | .ramIn => o.ramIn
  | .irIn => o.irIn
  | .aIn => o.aIn
  | .bIn => o.bIn
  | .pcInc => o.pcInc
  | .aluSub => o.aluSub
  | .flagsIn => o.flagsIn
  | .halt => o.halt

/-- The set with the signal asserted as well. -/
def SignalSet.assert (o : SignalSet) : Signal → SignalSet
  | .pcOut => { o with pcOut := true }
  | .ramOut => { o with ramOut := true }
  | .irOut => { o with irOut := true }
  | .aOut => { o with aOut := true }
  | .bOut => { o with bOut := true }
  | .aluOut => { o with aluOut := true }
  | .marIn => { o with marIn := true }
  | .ramIn => { o with ramIn := true }
  | .irIn => { o with irIn := true }
  | .aIn => { o with aIn := true }
  | .bIn => { o with bIn := true }
  | .pcInc => { o with pcInc := true }
  | .aluSub => { o with aluSub := true }
  | .flagsIn => { o with flagsIn := true }
  | .halt => { o with halt := true }

/-- The set without the signal. -/
def SignalSet.drop (o : SignalSet) : Signal → SignalSet
  | .pcOut => { o with pcOut := false }
  | .ramOut => { o with ramOut := false }
  | .irOut => { o with irOut := false }
  | .aOut => { o with aOut := false }
  | .bOut => { o with bOut := false }
  | .aluOut => { o with aluOut := false }
  | .marIn => { o with marIn := false }
  | .ramIn => { o with ramIn := false }
  | .irIn => { o with irIn := false }
  | .aIn => { o with aIn := false }
  | .bIn => { o with bIn := false }
  | .pcInc => { o with pcInc := false }
  | .aluSub => { o with aluSub := false }
  | .flagsIn => { o with flagsIn := false }
  | .halt => { o with halt := false }

/-- All 15 signals in the document's listing order (30_encoding.md R81). -/
def Signal.all : List Signal :=
  [.pcOut, .ramOut, .irOut, .aOut, .bOut, .aluOut] ++ [.marIn, .ramIn, .irIn, .aIn, .bIn] ++
    [.pcInc, .aluSub, .flagsIn] ++ [.halt]

/-- The six bus sources in listing order (R110). -/
def Signal.sources : List Signal := [.pcOut, .ramOut, .irOut, .aOut, .bOut, .aluOut]

/-- The order in which a control word is named (log 11): HALT, then sources, sinks and modifiers in listing order. -/
def Signal.ranked : List Signal :=
  [.halt] ++ [.pcOut, .ramOut, .irOut, .aOut, .bOut, .aluOut] ++ [.marIn, .ramIn, .irIn, .aIn, .bIn] ++
    [.pcInc, .aluSub, .flagsIn]

/-- One constructor per row of spec/opcode_table.json.

A control word is a SET of signals that act together in one micro-step (R81, R140), so the constructor of a signal
stands for the control words whose first asserted signal, in the order `Signal.ranked`, is that signal, and carries
the OTHER asserted signals (log 11); `nopWord` is the word that asserts none.  FETCH0 and FETCH1 have no encoding.
A macro-instruction is its opcode byte (R88): operand bytes are read by its microcode (R89). -/
inductive Instr where
  /-- PC_OUT (R144), with the other signals of its word. -/
  | pcOut (others : SignalSet)
  /-- RAM_OUT (R145), with the other signals of its word. -/
  | ramOut (others : SignalSet)
  /-- IR_OUT (R146), with the other signals of its word. -/
  | irOut (others : SignalSet)
  /-- A_OUT (R147), with the other signals of its word. -/
  | aOut (others : SignalSet)
  /-- B_OUT (R148), with the other signals of its word. -/
  | bOut (others : SignalSet)
  /-- ALU_OUT (R173), with the other signals of its word. -/
  | aluOut (others : SignalSet)
  /-- MAR_IN (R149), with the other signals of its word. -/
  | marIn (others : SignalSet)
  /-- RAM_IN (R154), with the other signals of its word. -/
  | ramIn (others : SignalSet)
  /-- IR_IN (R150), with the other signals of its word. -/
  | irIn (others : SignalSet)
  /-- A_IN (R151), with the other signals of its word. -/
  | aIn (others : SignalSet)
  /-- B_IN (R152), with the other signals of its word. -/
  | bIn (others : SignalSet)
  /-- PC_INC (R153), with the other signals of its word. -/
  | pcInc (others : SignalSet)
  /-- ALU_SUB (R174), with the other signals of its word. -/
  | aluSub (others : SignalSet)
  /-- FLAGS_IN (R176), with the other signals of its word. -/
  | flagsIn (others : SignalSet)
  /-- HALT (R125), with the other signals of its word. -/
  | halt (others : SignalSet)
  /-- NOP_WORD (R87): no signal asserted. -/
  | nopWord
  /-- FETCH0 (R122). -/
  | fetch0
  /-- FETCH1 (R123). -/
  | fetch1
  /-- NOP, opcode 0x00 (R189). -/
  | nop
  /-- HLT, opcode 0x01 (R190). -/
  | hlt
  /-- LDI_A imm8, opcode 0x02 (R191). -/
  | ldiA
  /-- LDI_B imm8, opcode 0x03 (R192). -/
  | ldiB
  /-- STA addr4, opcode 0x06 (R193). -/
  | sta
  /-- ADD, opcode 0x08 (R195). -/
  | add
  /-- OUT, opcode 0x0F (R194). -/
  | out
  /-- LDA addr4, opcode 0x04 (R198, TESTROM). -/
  | lda
  /-- SUB, opcode 0x09 (R198, TESTROM). -/
  | sub
  /-- CMP, opcode 0x0A (R198, TESTROM). -/
  | cmp
  /-- BAD, opcode 0x0B (R198, TESTROM). -/
  | bad
  /-- NOP_0x05 (R197). -/
  | nop05
  /-- NOP_0x07 (R197). -/
  | nop07
  /-- NOP_0x0C (R197). -/
  | nop0C
  /-- NOP_0x0D (R197). -/
  | nop0D
  /-- NOP_0x0E (R197). -/
  | nop0E
  /-- NOP_OUT_OF_RANGE, opcode byte `1xxxxxxx` (R196). -/
  | nopHigh7 (x : BitVec 7)
  /-- NOP_OUT_OF_RANGE, opcode byte `01xxxxxx` (R196). -/
  | nopHigh6 (x : BitVec 6)
  /-- NOP_OUT_OF_RANGE, opcode byte `001xxxxx` (R196). -/
  | nopHigh5 (x : BitVec 5)
  /-- NOP_OUT_OF_RANGE, opcode byte `0001xxxx` (R196). -/
  | nopHigh4 (x : BitVec 4)
  deriving DecidableEq, Repr

end Sys2Proof
end

