-- ==== Sys2Proof/WellFormed.lean ====
section
/-! DEFINITION. Well-formedness as checks that compute: SIGBIT is injective (30_encoding.md R82), a control word meets
the authoring contract of one bus source (40_control_word_decode.md R114), and an instruction term is the name of its
control word (log 11). -/

namespace Sys2Proof

/-- The bit position SIGBIT gives a signal (R82). -/
def SigBit.pos (sb : SigBit) : Signal → Fin 16
  | .pcOut => sb.pcOut
  | .ramOut => sb.ramOut
  | .irOut => sb.irOut
  | .aOut => sb.aOut
  | .bOut => sb.bOut
  | .aluOut => sb.aluOut
  | .marIn => sb.marIn
  | .ramIn => sb.ramIn
  | .irIn => sb.irIn
  | .aIn => sb.aIn
  | .bIn => sb.bIn
  | .pcInc => sb.pcInc
  | .aluSub => sb.aluSub
  | .flagsIn => sb.flagsIn
  | .halt => sb.halt

/-- SIGBIT is an injective map of the 15 names into 0..15 (R82). -/
def SigBit.wf (sb : SigBit) : Bool := decide (Signal.all.map sb.pos).Nodup

/-- How many bus sources the set asserts (R140, stage 2). -/
def SignalSet.sourceCount (o : SignalSet) : Nat := (Signal.sources.filter o.get).length

/-- A well-formed control word: at most one bus source, words with HALT exempt (R114). -/
def SignalSet.wf (o : SignalSet) : Bool := o.halt || decide (o.sourceCount ≤ 1)

/-- `o` asserts neither `s` nor any signal ranked before it: `s` is the first signal of the word `o` plus `s`. -/
def SignalSet.startsAfter (o : SignalSet) (s : Signal) : Bool :=
  !o.get s && (Signal.ranked.takeWhile (· != s)).all fun t => !o.get t

/-- An instruction term is well formed when a control-word constructor is the FIRST signal of its word, so that each
control word has one name (log 11). The other constructors have no ill-formed terms: their operands are exactly the
free bits of their row. -/
def Instr.wf : Instr → Bool
  | .pcOut o => o.startsAfter .pcOut
  | .ramOut o => o.startsAfter .ramOut
  | .irOut o => o.startsAfter .irOut
  | .aOut o => o.startsAfter .aOut
  | .bOut o => o.startsAfter .bOut
  | .aluOut o => o.startsAfter .aluOut
  | .marIn o => o.startsAfter .marIn
  | .ramIn o => o.startsAfter .ramIn
  | .irIn o => o.startsAfter .irIn
  | .aIn o => o.startsAfter .aIn
  | .bIn o => o.startsAfter .bIn
  | .pcInc o => o.startsAfter .pcInc
  | .aluSub o => o.startsAfter .aluSub
  | .flagsIn o => o.startsAfter .flagsIn
  | .halt o => o.startsAfter .halt
  | .nopWord => true
  | .fetch0 => true
  | .fetch1 => true
  | .nop => true
  | .hlt => true
  | .ldiA => true
  | .ldiB => true
  | .sta => true
  | .add => true
  | .out => true
  | .lda => true
  | .sub => true
  | .cmp => true
  | .bad => true
  | .nop05 => true
  | .nop07 => true
  | .nop0C => true
  | .nop0D => true
  | .nop0E => true
  | .nopHigh7 _ => true
  | .nopHigh6 _ => true
  | .nopHigh5 _ => true
  | .nopHigh4 _ => true

end Sys2Proof
end

