-- ==== Sys2Proof/Decode.lean ====
section
/-! DEFINITION. The decoder and the encoder of the three encodings an instruction can have: the control word CW16
(30_encoding.md R81 to R84, 40_control_word_decode.md R111), the opcode byte OP8 (R88), and none (FETCH0, FETCH1). Bytes
are read in the order of the ROM image (little-endian, R56). Decoding is total and rejects by name. -/

namespace Sys2Proof

/-- Decode (R111): signal `s` is asserted exactly when bit SIGBIT(s) of the word is 1. -/
def decodeSignals (sb : SigBit) (cw : ControlWord) : SignalSet where
  pcOut := cw.getLsbD (sb.pos .pcOut)
  ramOut := cw.getLsbD (sb.pos .ramOut)
  irOut := cw.getLsbD (sb.pos .irOut)
  aOut := cw.getLsbD (sb.pos .aOut)
  bOut := cw.getLsbD (sb.pos .bOut)
  aluOut := cw.getLsbD (sb.pos .aluOut)
  marIn := cw.getLsbD (sb.pos .marIn)
  ramIn := cw.getLsbD (sb.pos .ramIn)
  irIn := cw.getLsbD (sb.pos .irIn)
  aIn := cw.getLsbD (sb.pos .aIn)
  bIn := cw.getLsbD (sb.pos .bIn)
  pcInc := cw.getLsbD (sb.pos .pcInc)
  aluSub := cw.getLsbD (sb.pos .aluSub)
  flagsIn := cw.getLsbD (sb.pos .flagsIn)
  halt := cw.getLsbD (sb.pos .halt)

/-- The control word that asserts exactly the set's signals, the bit without a signal 0 (R82, R84). -/
def encodeSignals (sb : SigBit) (o : SignalSet) : ControlWord :=
  Signal.all.foldr (fun s w => if o.get s then (1#16 <<< (sb.pos s).val) ||| w else w) 0#16

/-- The name of a control word's signal set: its first signal in the order `Signal.ranked`, with the others (log 11). -/
def Instr.ofSignals (o : SignalSet) : Instr :=
  if o.halt then .halt (o.drop .halt)
  else if o.pcOut then .pcOut (o.drop .pcOut)
  else if o.ramOut then .ramOut (o.drop .ramOut)
  else if o.irOut then .irOut (o.drop .irOut)
  else if o.aOut then .aOut (o.drop .aOut)
  else if o.bOut then .bOut (o.drop .bOut)
  else if o.aluOut then .aluOut (o.drop .aluOut)
  else if o.marIn then .marIn (o.drop .marIn)
  else if o.ramIn then .ramIn (o.drop .ramIn)
  else if o.irIn then .irIn (o.drop .irIn)
  else if o.aIn then .aIn (o.drop .aIn)
  else if o.bIn then .bIn (o.drop .bIn)
  else if o.pcInc then .pcInc (o.drop .pcInc)
  else if o.aluSub then .aluSub (o.drop .aluSub)
  else if o.flagsIn then .flagsIn (o.drop .flagsIn)
  else .nopWord

/-- The signal set of a control-word instruction; none for the others. -/
def Instr.signals : Instr → Option SignalSet
  | .pcOut o => some (o.assert .pcOut)
  | .ramOut o => some (o.assert .ramOut)
  | .irOut o => some (o.assert .irOut)
  | .aOut o => some (o.assert .aOut)
  | .bOut o => some (o.assert .bOut)
  | .aluOut o => some (o.assert .aluOut)
  | .marIn o => some (o.assert .marIn)
  | .ramIn o => some (o.assert .ramIn)
  | .irIn o => some (o.assert .irIn)
  | .aIn o => some (o.assert .aIn)
  | .bIn o => some (o.assert .bIn)
  | .pcInc o => some (o.assert .pcInc)
  | .aluSub o => some (o.assert .aluSub)
  | .flagsIn o => some (o.assert .flagsIn)
  | .halt o => some (o.assert .halt)
  | .nopWord => some {}
  | .fetch0 => none
  | .fetch1 => none
  | .nop => none
  | .hlt => none
  | .ldiA => none
  | .ldiB => none
  | .sta => none
  | .add => none
  | .out => none
  | .lda => none
  | .sub => none
  | .cmp => none
  | .bad => none
  | .nop05 => none
  | .nop07 => none
  | .nop0C => none
  | .nop0D => none
  | .nop0E => none
  | .nopHigh7 _ => none
  | .nopHigh6 _ => none
  | .nopHigh5 _ => none
  | .nopHigh4 _ => none

/-- The instruction a control word is (R111); it never refuses a word. -/
def decodeControlWord (sb : SigBit) (cw : ControlWord) : Instr := Instr.ofSignals (decodeSignals sb cw)

/-- The macro-instruction an opcode byte is (R93, R94, R189 to R198); all 256 bytes are one. -/
def decodeOpcode (op : Byte) : Instr :=
  if op.getLsbD 7 then .nopHigh7 (op.setWidth 7)
  else if op.getLsbD 6 then .nopHigh6 (op.setWidth 6)
  else if op.getLsbD 5 then .nopHigh5 (op.setWidth 5)
  else if op.getLsbD 4 then .nopHigh4 (op.setWidth 4)
  else match op.toNat with
    | 0x00 => .nop
    | 0x01 => .hlt
    | 0x02 => .ldiA
    | 0x03 => .ldiB
    | 0x04 => .lda
    | 0x05 => .nop05
    | 0x06 => .sta
    | 0x07 => .nop07
    | 0x08 => .add
    | 0x09 => .sub
    | 0x0A => .cmp
    | 0x0B => .bad
    | 0x0C => .nop0C
    | 0x0D => .nop0D
    | 0x0E => .nop0E
    | _ => .out

/-- The opcode byte of a macro-instruction; none for the others. -/
def Instr.opcode : Instr → Option Byte
  | .pcOut _ => none
  | .ramOut _ => none
  | .irOut _ => none
  | .aOut _ => none
  | .bOut _ => none
  | .aluOut _ => none
  | .marIn _ => none
  | .ramIn _ => none
  | .irIn _ => none
  | .aIn _ => none
  | .bIn _ => none
  | .pcInc _ => none
  | .aluSub _ => none
  | .flagsIn _ => none
  | .halt _ => none
  | .nopWord => none
  | .fetch0 => none
  | .fetch1 => none
  | .nop => some 0x00#8
  | .hlt => some 0x01#8
  | .ldiA => some 0x02#8
  | .ldiB => some 0x03#8
  | .lda => some 0x04#8
  | .nop05 => some 0x05#8
  | .sta => some 0x06#8
  | .nop07 => some 0x07#8
  | .add => some 0x08#8
  | .sub => some 0x09#8
  | .cmp => some 0x0A#8
  | .bad => some 0x0B#8
  | .nop0C => some 0x0C#8
  | .nop0D => some 0x0D#8
  | .nop0E => some 0x0E#8
  | .out => some 0x0F#8
  | .nopHigh7 x => some (1#1 ++ x)
  | .nopHigh6 x => some (1#2 ++ x)
  | .nopHigh5 x => some (1#3 ++ x)
  | .nopHigh4 x => some (1#4 ++ x)

/-- The formats of 30_encoding.md R80 that encode an instruction, and SEQ for the two micro-operations the sequencer
selects by phase (R92). -/
inductive Format where
  | cw16
  | op8
  | seq
  deriving DecidableEq, Repr

/-- Why a byte sequence is no instruction of a format. -/
inductive DecodeError where
  /-- Fewer bytes than the format's word has. -/
  | tooShort
  /-- FETCH0 and FETCH1 have no encoding (R92). -/
  | noEncoding
  deriving DecidableEq, Repr

/-- Decoding of bytes in a format, total: the instruction and the bytes after it, or a rejection by name. A control word
is two bytes, low byte first (R56); an opcode is one (R88). -/
def decodeBytes (sb : SigBit) : Format → List Byte → Except DecodeError (Instr × List Byte)
  | .cw16, lo :: hi :: rest => .ok (decodeControlWord sb (hi ++ lo), rest)
  | .cw16, _ => .error .tooShort
  | .op8, op :: rest => .ok (decodeOpcode op, rest)
  | .op8, [] => .error .tooShort
  | .seq, _ => .error .noEncoding

/-- The format an instruction is encoded in. -/
def Instr.format (i : Instr) : Format :=
  match i.signals, i.opcode with
  | some _, _ => .cw16
  | none, some _ => .op8
  | none, none => .seq

/-- The bytes of an instruction, written from the encoding tables (R82, R56, R93); none for FETCH0 and FETCH1. -/
def encode (sb : SigBit) (i : Instr) : Option (List Byte) :=
  match i.signals, i.opcode with
  | some o, _ =>
    let cw := encodeSignals sb o
    some [cw.setWidth 8, (cw >>> 8).setWidth 8]
  | none, some op => some [op]
  | none, none => none

/-- The instruction the decoder reads from a row's bits, numbered as spec/opcode_table.json numbers them, under the
default SIGBIT: 16 bits are a control word, 8 bits an opcode byte; every other width is refused. The bits are laid out as
bytes in the order of the ROM image and given to `decodeBytes`. -/
def decodeTableWord (nbits w : Nat) : Option Instr :=
  let bytes := [BitVec.ofNat 8 w, BitVec.ofNat 8 (w / 256)]
  let fmt : Option Format := if nbits = 16 ∧ w < 2 ^ 16 then some .cw16 else if nbits = 8 ∧ w < 2 ^ 8 then some .op8 else none
  match fmt with
  | none => none
  | some f =>
    match decodeBytes {} f bytes with
    | .ok (i, _) => some i
    | .error _ => none

end Sys2Proof
end

