-- ==== Sys2Proof/Machine/State.lean ====
section
/-! DEFINITION. The machine's state as plain data (10_state.md R20), the inputs and open parameters the spec asks a model
to take as launch state (00_scope.md R9), the Clock (60_exceptions.md R220), the reasons a step can stop, and reset. -/

namespace Sys2Proof.Machine

/-- RAM: (address, byte) pairs in canonical form (`Memory.wf`); an unlisted address reads 0x00 (log 2). -/
abbrev Memory := List Host.Cell

/-- The microcode ROM: (word address, control word) pairs in canonical form (`Rom.wf`); an unlisted word reads 0x0000
("unused addresses read as all-zero (NOP)", 20_memory.md R62). -/
abbrev Rom := List (Nat × ControlWord)

/-- The sequencer's six states (41_sequencer.md R120). -/
inductive Phase where
  | fetch0
  | fetch1
  | execute (k : Fin 3)
  | halted
  deriving DecidableEq, Repr

/-- Clock modes (60_exceptions.md R231). -/
inductive ClockMode where
  | continuous
  | manual
  deriving DecidableEq, Repr

/-- The clock's logical signal (R220). -/
inductive Level where
  | low
  | high
  deriving DecidableEq, Repr

/-- The two edges a callback can be registered on (R225). -/
inductive Edge where
  | rising
  | falling
  deriving DecidableEq, Repr

/-- A registered callback: the core's `Step` (R225), or another observer of the edges, by a number of the host's. That an
observer changes no state of the machine is the model's choice (log 20). -/
inductive Callback where
  | coreStep
  | observer (id : Nat)
  deriving DecidableEq, Repr

/-- Clock state (R220); times are rational seconds (log 8). -/
structure Clock where
  mode : ClockMode
  period : Rat
  running : Bool
  level : Level
  clkCycles : Nat
  edgeRef : Rat
  rising : List Callback
  falling : List Callback
  deriving DecidableEq, Repr

/-- The Clock before any operation on it (R220, D19): not running, low, count 0, no callbacks; mode and period are the
host's. -/
def Clock.initial (mode : ClockMode) (period : Rat) : Clock where
  mode := mode
  period := period
  running := false
  level := .low
  clkCycles := 0
  edgeRef := 0
  rising := []
  falling := []

/-- How many rising edges one step of the model stands for (log 9; the driver's choice, R230; the two levels of
instruction, R3): one micro-cycle, or at an instruction boundary one whole macro-instruction. -/
inductive Grain where
  | microCycle
  | macroInstruction
  deriving DecidableEq, Repr

/-- The whole machine. `a` to `instructions` are the ProcessorCore's state (R20, "and nothing else"); `rom` and `cfg`
are its inputs and open parameters (R31, R9), which no step changes; `clock` is the Clock's (R220); `grain` and
`freeCount` are the model's own (log 9, log 10). -/
structure State where
  /-- Register A (R21). -/
  a : Byte
  /-- Register B (R21). -/
  b : Byte
  /-- Program counter (R22). -/
  pc : Nibble
  /-- Memory address latch (R25). -/
  mar : Nibble
  /-- Instruction latch (R26). -/
  ir : Byte
  /-- FLAGS.C (R23, R24). -/
  flagC : Bool
  /-- FLAGS.Z (R23, R24). -/
  flagZ : Bool
  /-- The shared bus, which keeps the last value driven (R32). -/
  bus : Byte
  /-- RAM[0..15] (20_memory.md R50). -/
  ram : Memory
  /-- Sequencer state (R29). -/
  phase : Phase
  /-- Micro-cycle counter (R30). -/
  cycles : Nat
  /-- Completed-instruction counter (R30). -/
  instructions : Nat
  /-- The microcode ROM lent at construction (R31). -/
  rom : Rom
  /-- SIGBIT, CONTENTION, FLAGS_WITHOUT_ALU_OUT (R9). -/
  cfg : Config
  /-- The Clock (R220). -/
  clock : Clock
  /-- The model's own: edges per step (log 9). -/
  grain : Grain
  /-- The model's own: free choices taken so far (log 10). -/
  freeCount : Nat
  deriving DecidableEq, Repr

/-- Why the machine stops with a fault. -/
inductive Fault where
  /-- Raised by an Execute micro-step whose word, without HALT, asserts two or more bus sources, under CONTENTION = fault
  (42_signal_execution.md R143, R213); with the opcode, the step and the asserted sources. Safe: the hardware goes on
  with an unspecified winner, so nothing can be proved of such a run (log 5). Not raised where `flagsInWithoutAluOut` is
  (log 18). -/
  | busContention (opcode : Byte) (step : Fin 3) (sources : List Signal)
  deriving DecidableEq, Repr

/-- Why the model gives no meaning. -/
inductive Refusal where
  /-- An arm of `exec` without a meaning yet. Raised by no meaning. Safe. -/
  | notModelled (mnemonic : String)
  /-- Raised by a word with FLAGS_IN and without ALU_OUT under FLAGS_WITHOUT_ALU_OUT = refuse, the spec's named alternative
  (43_alu_flags.md R177); never under the default. Safe (log 6). It comes before `busContention` (log 18). -/
  | flagsInWithoutAluOut
  /-- Raised by a meaning applied in a phase in which the sequencer never selects it (41_sequencer.md R135); never by
  `step`. Safe (log 12). -/
  | wrongPhase
  /-- Raised by the Clock's `step()` in Continuous mode, which the source leaves unsaid (91_not_in_source.md N14, V13);
  never by `step`. Safe (log 13). -/
  | clockStepInContinuousMode
  deriving DecidableEq, Repr

/-- The three outcomes of a step of this machine. -/
abbrev Result := Host.Outcome State Fault Refusal

/-- The core right after construction with a ROM, the open parameters and the launch values (10_state.md R36, R37;
70_reset_and_hazards.md R260): Fetch0, PC 0, both counters 0. The Clock is the one of R220. -/
def State.construct (rom : Rom) (cfg : Config) (v : ResetValues) : State where
  a := v.a
  b := v.b
  pc := 0
  mar := v.mar
  ir := v.ir
  flagC := v.flagC
  flagZ := v.flagZ
  bus := v.bus
  ram := v.ram
  phase := .fetch0
  cycles := 0
  instructions := 0
  rom := rom
  cfg := cfg
  clock := Clock.initial .manual 1
  grain := .microCycle
  freeCount := 0

/-- The machine right after reset: the spec's default parameters and reset values (R9, R37) and a ROM in which no word is
authored (the ROM is an input, "not reset", R37; log 3). -/
def State.reset : State := State.construct [] {} {}

end Sys2Proof.Machine
end

