-- ==== Sys2Proof/Machine/Ops.lean ====
section
/-! DEFINITION. The named operations over memory and registers that every meaning is built from: canonical cell lists, the
RAM and ROM primitives (20_memory.md R53 to R55), the widths of bus transfers, the fetch micro-operations' effects
(41_sequencer.md R122, R123), the counters and the advance of the sequencer (R127, R129, R131). The hardware has no
exception (60_exceptions.md R210, R216), so there is no operation that takes one and none that returns from one. -/

namespace Sys2Proof.Machine

/-! ### Cell lists -/

/-- The value at an address; an unlisted address reads the default. -/
def Cells.read {α : Type} (d : α) : List (Nat × α) → Nat → α
  | [], _ => d
  | (k, v) :: rest, a => if k = a then v else Cells.read d rest a

/-- The list with an address set to a value, in canonical form: an entry equal to the default is not listed. -/
def Cells.write {α : Type} [DecidableEq α] (d : α) : List (Nat × α) → Nat → α → List (Nat × α)
  | [], a, v => if v = d then [] else [(a, v)]
  | (k, w) :: rest, a, v =>
    if a < k then (if v = d then (k, w) :: rest else (a, v) :: (k, w) :: rest)
    else if a = k then (if v = d then rest else (a, v) :: rest)
    else (k, w) :: Cells.write d rest a v

/-- Canonical form: addresses strictly rising from `lo`, all below `bound`, no entry equal to the default. -/
def Cells.wfFrom {α : Type} [DecidableEq α] (d : α) (bound : Nat) : Nat → List (Nat × α) → Bool
  | _, [] => true
  | lo, (k, v) :: rest => decide (lo ≤ k) && decide (k < bound) && decide (v ≠ d) && Cells.wfFrom d bound (k + 1) rest

/-! ### RAM (20_memory.md R50 to R54) -/

/-- What an unlisted RAM address reads as (D3; log 2). -/
def Memory.default : Byte := 0x00#8

/-- RAM is in canonical form and lists only its 16 addresses. -/
def Memory.wf (m : Memory) : Bool := Cells.wfFrom Memory.default 16 0 m

/-- MemRead(a, 1) (R53): every 4-bit address is valid (R51). -/
def readByte (m : Memory) (a : Nibble) : Byte := Cells.read Memory.default m a.toNat

/-- MemWrite(a, 1, v) (R54). -/
def writeByte (m : Memory) (a : Nibble) (v : Byte) : Memory := Cells.write Memory.default m a.toNat v

/-! ### The microcode ROM (20_memory.md R55, R62) -/

/-- The ROM is in canonical form and lists only its 128 word addresses. -/
def Rom.wf (r : Rom) : Bool := Cells.wfFrom 0#16 128 0 r

/-- The ROM word address `(IR << 3) | step`, 11 bits, not truncated (30_encoding.md R85). -/
def romAddress (ir : Byte) (k : Fin 3) : RomAddr := (ir.setWidth 11 <<< 3) ||| BitVec.ofNat 11 k.val

/-- RomRead (R55): an address of 128 or more reads 0x0000, the NOP word. -/
def romRead (r : Rom) (addr : RomAddr) : ControlWord :=
  if addr.toNat < 128 then Cells.read 0#16 r addr.toNat else 0#16

/-! ### Bus widths -/

/-- `zext_8`: PC on the bus, upper four bits 0 (R122, R144, D12). -/
def zext8 (n : Nibble) : Byte := n.setWidth 8

/-- `BUS[3:0]`: what MAR latches (10_state.md R25, 42_signal_execution.md R149). -/
def lowNibble (v : Byte) : Nibble := v.setWidth 4

/-! ### The sequencer's operations -/

/-- The micro-cycle counter of `Step` (41_sequencer.md R121, R129). -/
def countCycle (s : State) : State := { s with cycles := s.cycles + 1 }

/-- DoFetch0 (R122). -/
def doFetch0 (s : State) : State := { s with bus := zext8 s.pc, mar := lowNibble (zext8 s.pc), phase := .fetch1 }

/-- DoFetch1 with the opcode byte read from RAM[MAR] (R123). -/
def doFetch1 (op : Byte) (s : State) : State := { s with bus := op, ir := op, pc := s.pc + 1, phase := .execute 0 }

/-- Advance (R127): after step 2 one instruction is complete. -/
def advance (k : Fin 3) (s : State) : State :=
  if k = 2 then { s with instructions := s.instructions + 1, phase := .fetch0 }
  else { s with phase := .execute (k + 1) }

/-- The effect of HALT (R125): nothing but the phase. -/
def enterHalted (s : State) : State := { s with phase := .halted }

/-- One outcome after another: a fault or a refusal ends the sequence. -/
def andThen (r : Result) (f : State → Result) : Result :=
  match r with
  | .next s => f s
  | .fault e => .fault e
  | .refused e => .refused e

end Sys2Proof.Machine
end

