-- ==== Sys2Proof/Machine/Flags.lean ====
section
/-! DEFINITION. The ALU (43_alu_flags.md R170): exact integer arithmetic on unsigned operands, narrowed at the end; its
carry and zero outputs; and the flags latch (R176). -/

namespace Sys2Proof.Machine

/-- The unmasked result, -255..510 (R170). -/
def aluRaw (sub : Bool) (a b : Byte) : Int :=
  if sub then (a.toNat : Int) - (b.toNat : Int) else (a.toNat : Int) + (b.toNat : Int)

/-- The 8-bit result, `raw mod 256` (R170 to R172). -/
def aluResult (sub : Bool) (a b : Byte) : Byte := BitVec.ofInt 8 (aluRaw sub a b)

/-- Carry: the unmasked result left 0..255 (R170); a borrow on subtraction (R172). -/
def aluCarry (sub : Bool) (a b : Byte) : Bool := decide (aluRaw sub a b > 255) || decide (aluRaw sub a b < 0)

/-- Zero: the masked result is 0 (R175). -/
def aluZero (sub : Bool) (a b : Byte) : Bool := decide (aluResult sub a b = 0)

/-- FLAGS.C after a micro-step (R176, R179): latched from the ALU of this micro-step with FLAGS_IN, kept without. -/
def nextFlagC (o : SignalSet) (s : State) : Bool := if o.flagsIn then aluCarry o.aluSub s.a s.b else s.flagC

/-- FLAGS.Z after a micro-step (R176, R179). -/
def nextFlagZ (o : SignalSet) (s : State) : Bool := if o.flagsIn then aluZero o.aluSub s.a s.b else s.flagZ

/-- The word latches flags without ALU_OUT and the parameter refuses it (R177). -/
def flagsRefused (o : SignalSet) (c : Config) : Bool :=
  o.flagsIn && !o.aluOut && decide (c.flagsWithoutAluOut = .refuse)

end Sys2Proof.Machine
end

