-- ==== Sys2Proof/Machine/Operands.lean ====
section
/-! DEFINITION. The operand forms of a micro-step: the six bus sources, all read from the state before the micro-step
(42_signal_execution.md R140 stage 2, R144 to R148; 43_alu_flags.md R173), and the bus arbiter (R141 to R143). -/

namespace Sys2Proof.Machine

/-- The value a bus source drives. A signal that is no source drives nothing: the bus keeps its value. -/
def sourceValue (o : SignalSet) (s : State) : Signal → Byte
  | .pcOut => zext8 s.pc
  | .ramOut => readByte s.ram s.mar
  | .irOut => s.ir
  | .aOut => s.a
  | .bOut => s.b
  | .aluOut => aluResult o.aluSub s.a s.b
  | .marIn | .ramIn | .irIn | .aIn | .bIn | .pcInc | .aluSub | .flagsIn | .halt => s.bus

/-- The asserted bus sources, in listing order (the order decides nothing, R143). -/
def assertedSources (o : SignalSet) : List Signal := Signal.sources.filter o.get

/-- The source that wins a contention under CONTENTION = any-asserted-source: a free choice among the asserted ones
(R143; log 10). -/
def freeChoice (x : Signal) (xs : List Signal) (n : Nat) : Signal :=
  (x :: xs).getD (Config.freeSource n % (xs.length + 1)) x

/-- The bus value of a micro-step: kept with no source (R142), the source's with one (R141), a freely chosen asserted
source's with several (R143). -/
def busValue (o : SignalSet) (s : State) : Byte :=
  match assertedSources o with
  | [] => s.bus
  | [x] => sourceValue o s x
  | x :: y :: rest => sourceValue o s (freeChoice x (y :: rest) s.freeCount)

/-- Two or more bus sources are asserted. -/
def contends (o : SignalSet) : Bool := decide (2 ≤ (assertedSources o).length)

end Sys2Proof.Machine
end

