-- ==== Sys2Proof/Machine/Datapath.lean ====
section
/-! DEFINITION. What an Execute micro-step does with its decoded signal set (42_signal_execution.md R140): the latches,
the arbiter's check, HALT first (41_sequencer.md R125), then the advance (R127). -/

namespace Sys2Proof.Machine

/-- Stages 3 and 4 of ApplySignals (R140): every destination latches from the state before the micro-step and the one
bus value; all writes take effect together. -/
def latch (o : SignalSet) (bus : Byte) (s : State) : State :=
  { s with
    bus := bus
    mar := if o.marIn then lowNibble bus else s.mar
    ram := if o.ramIn then writeByte s.ram s.mar bus else s.ram
    ir := if o.irIn then bus else s.ir
    a := if o.aIn then bus else s.a
    b := if o.bIn then bus else s.b
    flagC := nextFlagC o s
    flagZ := nextFlagZ o s
    pc := if o.pcInc then s.pc + 1 else s.pc
    freeCount := if contends o then s.freeCount + 1 else s.freeCount }

/-- ApplySignals (R140), HALT known to be absent: the refusal of FLAGS_WITHOUT_ALU_OUT = refuse (R177), else the fault of
two sources under CONTENTION = fault (R143), else the latches. DESIGN CHOICE (log 18, safe): the spec does not say which
stop wins for a word that meets both; the refusal does. -/
def applySignals (o : SignalSet) (k : Fin 3) (s : State) : Result :=
  if flagsRefused o s.cfg then .refused .flagsInWithoutAluOut
  else if contends o && decide (s.cfg.contention = .fault) then .fault (.busContention s.ir k (assertedSources o))
  else .next (latch o (busValue o s) s)

/-- DoExecute after decode (R124): HALT is tested before any signal is applied (R125, C4). -/
def executeSet (o : SignalSet) (k : Fin 3) (s : State) : Result :=
  if o.halt then .next (enterHalted s)
  else andThen (applySignals o k s) fun t => .next (advance k t)

/-- The micro-cycle of a control word with the given signal set: nothing in Halted (R128), else one counted Execute
micro-step. In a fetch phase the sequencer reads no control word (R112; log 12). -/
def microStep (o : SignalSet) (s : State) : Result :=
  match s.phase with
  | .halted => .next s
  | .execute k => executeSet o k (countCycle s)
  | .fetch0 | .fetch1 => .refused .wrongPhase

end Sys2Proof.Machine
end

