-- ==== Sys2Proof/Machine/Sequencer.lean ====
section
/-! DEFINITION. HALT (41_sequencer.md R125), the NOP word (30_encoding.md R87), the two hard-wired fetch micro-operations
(R122, R123), and `edge`, the spec's step function `Step(ROM)` (R121): what one rising clock edge does to the core. -/

namespace Sys2Proof.Machine

/-- HALT: the sequencer enters Halted and no other signal of the word is applied (R125). -/
def execHalt (others : SignalSet) (s : State) : Result := microStep (others.assert .halt) s

/-- NOP_WORD: only the sequencer and the counters advance (R87). -/
def execNopWord (s : State) : Result := microStep {} s

/-- FETCH0: bus and MAR take PC (R122). Nothing in Halted (R128); selected only in phase Fetch0 (log 12). -/
def execFetch0 (s : State) : Result :=
  match s.phase with
  | .halted => .next s
  | .fetch0 => .next (doFetch0 (countCycle s))
  | .fetch1 | .execute _ => .refused .wrongPhase

/-- FETCH1: bus and IR take RAM[MAR], PC goes up by 1 mod 16 (R123). Selected only in phase Fetch1 (log 12). -/
def execFetch1 (s : State) : Result :=
  match s.phase with
  | .halted => .next s
  | .fetch1 => .next (doFetch1 (readByte s.ram s.mar) (countCycle s))
  | .fetch0 | .execute _ => .refused .wrongPhase

/-- The decoded signal set of the Execute micro-step `k` (R124): ROM lookup at the present IR, then Decode (R111). -/
def currentSignals (s : State) (k : Fin 3) : SignalSet :=
  decodeSignals s.cfg.sigbit (romRead s.rom (romAddress s.ir k))

/-- `Step(ROM)` (R121, R135): one rising edge. -/
def edge (s : State) : Result :=
  match s.phase with
  | .halted => .next s
  | .fetch0 => execFetch0 s
  | .fetch1 => execFetch1 s
  | .execute k => microStep (currentSignals s k) s

end Sys2Proof.Machine
end

