-- ==== Sys2Proof/Machine/Macro.lean ====
section
/-! DEFINITION. The macro-instructions (44_macro_instructions.md). A macro-instruction is Fetch0, Fetch1 and the three
control words its opcode selects in the ROM, each on the state the previous one left (R185); what an opcode does is a
function of the ROM (R3, R185). An opcode has its row's effect (R189 to R198) in a state whose ROM holds the row's three
control words, `microcode` in Machine/Microcode.lean. -/

namespace Sys2Proof.Machine

/-- The macro-instruction with the opcode byte `op` at PC (R185): `MAR <- p; BUS <- op; IR <- op; PC <- p + 1`, then the
three Execute micro-steps. A HALT word ends it early, since an edge changes nothing in Halted (R128). It begins in phase
Fetch0 only (log 12). -/
def macroInstruction (op : Byte) (s : State) : Result :=
  match s.phase with
  | .halted => .next s
  | .fetch0 =>
    andThen (andThen (edge (doFetch1 op (countCycle (doFetch0 (countCycle s))))) edge) edge
  | .fetch1 | .execute _ => .refused .wrongPhase

/-- NOP, opcode 0x00: no operation (R189). -/
def execNop (s : State) : Result := macroInstruction 0x00#8 s

/-- HLT, opcode 0x01: halt (R190). -/
def execHlt (s : State) : Result := macroInstruction 0x01#8 s

/-- LDI_A, opcode 0x02: load the next byte into A (R191). -/
def execLdiA (s : State) : Result := macroInstruction 0x02#8 s

/-- LDI_B, opcode 0x03: load the next byte into B (R192). -/
def execLdiB (s : State) : Result := macroInstruction 0x03#8 s

/-- LDA, opcode 0x04: load A from the address the next byte names (R198). -/
def execLda (s : State) : Result := macroInstruction 0x04#8 s

/-- NOP_0x05, opcode 0x05: no operation (R197). -/
def execNop05 (s : State) : Result := macroInstruction 0x05#8 s

/-- STA, opcode 0x06: store A at the address the next byte names (R193). -/
def execSta (s : State) : Result := macroInstruction 0x06#8 s

/-- NOP_0x07, opcode 0x07: no operation (R197). -/
def execNop07 (s : State) : Result := macroInstruction 0x07#8 s

/-- ADD, opcode 0x08: A takes A + B, flags latched (R195). -/
def execAdd (s : State) : Result := macroInstruction 0x08#8 s

/-- SUB, opcode 0x09: A takes A - B, flags latched (R198). -/
def execSub (s : State) : Result := macroInstruction 0x09#8 s

/-- CMP, opcode 0x0A: flags of A - B, no register (R198). -/
def execCmp (s : State) : Result := macroInstruction 0x0A#8 s

/-- BAD, opcode 0x0B: asserts A_OUT and B_OUT together: bus contention (R198, R143). -/
def execBad (s : State) : Result := macroInstruction 0x0B#8 s

/-- NOP_0x0C, opcode 0x0C: no operation (R197). -/
def execNop0C (s : State) : Result := macroInstruction 0x0C#8 s

/-- NOP_0x0D, opcode 0x0D: no operation (R197). -/
def execNop0D (s : State) : Result := macroInstruction 0x0D#8 s

/-- NOP_0x0E, opcode 0x0E: no operation (R197). -/
def execNop0E (s : State) : Result := macroInstruction 0x0E#8 s

/-- OUT, opcode 0x0F: A on the bus, nothing else (R194). -/
def execOut (s : State) : Result := macroInstruction 0x0F#8 s

/-- NOP_OUT_OF_RANGE, opcode byte `1xxxxxxx`: its ROM addresses are 128 or more, so all three words are the NOP word
(R196). -/
def execNopHigh7 (x : BitVec 7) (s : State) : Result := macroInstruction (1#1 ++ x) s

/-- NOP_OUT_OF_RANGE, opcode byte `01xxxxxx`: its ROM addresses are 128 or more, so all three words are the NOP word
(R196). -/
def execNopHigh6 (x : BitVec 6) (s : State) : Result := macroInstruction (1#2 ++ x) s

/-- NOP_OUT_OF_RANGE, opcode byte `001xxxxx`: its ROM addresses are 128 or more, so all three words are the NOP word
(R196). -/
def execNopHigh5 (x : BitVec 5) (s : State) : Result := macroInstruction (1#3 ++ x) s

/-- NOP_OUT_OF_RANGE, opcode byte `0001xxxx`: its ROM addresses are 128 or more, so all three words are the NOP word
(R196). -/
def execNopHigh4 (x : BitVec 4) (s : State) : Result := macroInstruction (1#4 ++ x) s

end Sys2Proof.Machine
end

