-- ==== Sys2Proof/Machine/Modifiers.lean ====
section
/-! DEFINITION. PC_INC, ALU_SUB and FLAGS_IN (42_signal_execution.md R153, 43_alu_flags.md R174, R176) at the head of a
word without a source or a sink. -/

namespace Sys2Proof.Machine

/-- PC_INC: PC takes `(old.PC + 1) mod 16` (R153). -/
def execPcInc (others : SignalSet) (s : State) : Result := microStep (others.assert .pcInc) s

/-- ALU_SUB: selects subtraction in the ALU (R174). -/
def execAluSub (others : SignalSet) (s : State) : Result := microStep (others.assert .aluSub) s

/-- FLAGS_IN: FLAGS take the ALU's carry and zero of this micro-step (R176, R177). -/
def execFlagsIn (others : SignalSet) (s : State) : Result := microStep (others.assert .flagsIn) s

end Sys2Proof.Machine
end

