-- ==== Sys2Proof/Machine/Sinks.lean ====
section
/-! DEFINITION. The five bus sinks (42_signal_execution.md R149 to R152, R154) at the head of a word without a source: each
latches the kept bus value (R142). -/

namespace Sys2Proof.Machine

/-- MAR_IN: MAR takes bits 3..0 of the bus (R149). -/
def execMarIn (others : SignalSet) (s : State) : Result := microStep (others.assert .marIn) s

/-- RAM_IN: RAM at the old MAR takes the bus (R154). -/
def execRamIn (others : SignalSet) (s : State) : Result := microStep (others.assert .ramIn) s

/-- IR_IN: IR takes the bus (R150). -/
def execIrIn (others : SignalSet) (s : State) : Result := microStep (others.assert .irIn) s

/-- A_IN: A takes the bus (R151). -/
def execAIn (others : SignalSet) (s : State) : Result := microStep (others.assert .aIn) s

/-- B_IN: B takes the bus (R152). -/
def execBIn (others : SignalSet) (s : State) : Result := microStep (others.assert .bIn) s

end Sys2Proof.Machine
end

