-- ==== Sys2Proof/Machine/Sources.lean ====
section
/-! DEFINITION. The six bus sources (42_signal_execution.md R144 to R148, 43_alu_flags.md R173): each is the micro-step of
its word; the value it drives is `sourceValue`. -/

namespace Sys2Proof.Machine

/-- PC_OUT: the bus takes `zext_8(old.PC)` (R144). -/
def execPcOut (others : SignalSet) (s : State) : Result := microStep (others.assert .pcOut) s

/-- RAM_OUT: the bus takes `RAM[old.MAR]` (R145). -/
def execRamOut (others : SignalSet) (s : State) : Result := microStep (others.assert .ramOut) s

/-- IR_OUT: the bus takes `old.IR`, all 8 bits (R146). -/
def execIrOut (others : SignalSet) (s : State) : Result := microStep (others.assert .irOut) s

/-- A_OUT: the bus takes `old.A` (R147). -/
def execAOut (others : SignalSet) (s : State) : Result := microStep (others.assert .aOut) s

/-- B_OUT: the bus takes `old.B` (R148). -/
def execBOut (others : SignalSet) (s : State) : Result := microStep (others.assert .bOut) s

/-- ALU_OUT: the bus takes the ALU's 8-bit result (R173). -/
def execAluOut (others : SignalSet) (s : State) : Result := microStep (others.assert .aluOut) s

end Sys2Proof.Machine
end

