-- ==== Sys2Proof/Machine/Dispatch.lean ====
section
/-! DEFINITION. Dispatch: one arm per constructor of `Instr`, each one direct call of that instruction's meaning. -/

namespace Sys2Proof.Machine

def exec (i : Instr) (s : State) : Host.Outcome State Fault Refusal :=
  match i with
  | .pcOut others => Sys2Proof.Machine.execPcOut others s
  | .ramOut others => Sys2Proof.Machine.execRamOut others s
  | .irOut others => Sys2Proof.Machine.execIrOut others s
  | .aOut others => Sys2Proof.Machine.execAOut others s
  | .bOut others => Sys2Proof.Machine.execBOut others s
  | .aluOut others => Sys2Proof.Machine.execAluOut others s
  | .marIn others => Sys2Proof.Machine.execMarIn others s
  | .ramIn others => Sys2Proof.Machine.execRamIn others s
  | .irIn others => Sys2Proof.Machine.execIrIn others s
  | .aIn others => Sys2Proof.Machine.execAIn others s
  | .bIn others => Sys2Proof.Machine.execBIn others s
  | .pcInc others => Sys2Proof.Machine.execPcInc others s
  | .aluSub others => Sys2Proof.Machine.execAluSub others s
  | .flagsIn others => Sys2Proof.Machine.execFlagsIn others s
  | .halt others => Sys2Proof.Machine.execHalt others s
  | .nopWord => Sys2Proof.Machine.execNopWord s
  | .fetch0 => Sys2Proof.Machine.execFetch0 s
  | .fetch1 => Sys2Proof.Machine.execFetch1 s
  | .nop => Sys2Proof.Machine.execNop s
  | .hlt => Sys2Proof.Machine.execHlt s
  | .ldiA => Sys2Proof.Machine.execLdiA s
  | .ldiB => Sys2Proof.Machine.execLdiB s
  | .sta => Sys2Proof.Machine.execSta s
  | .add => Sys2Proof.Machine.execAdd s
  | .out => Sys2Proof.Machine.execOut s
  | .lda => Sys2Proof.Machine.execLda s
  | .sub => Sys2Proof.Machine.execSub s
  | .cmp => Sys2Proof.Machine.execCmp s
  | .bad => Sys2Proof.Machine.execBad s
  | .nop05 => Sys2Proof.Machine.execNop05 s
  | .nop07 => Sys2Proof.Machine.execNop07 s
  | .nop0C => Sys2Proof.Machine.execNop0C s
  | .nop0D => Sys2Proof.Machine.execNop0D s
  | .nop0E => Sys2Proof.Machine.execNop0E s
  | .nopHigh7 x => Sys2Proof.Machine.execNopHigh7 x s
  | .nopHigh6 x => Sys2Proof.Machine.execNopHigh6 x s
  | .nopHigh5 x => Sys2Proof.Machine.execNopHigh5 x s
  | .nopHigh4 x => Sys2Proof.Machine.execNopHigh4 x s

end Sys2Proof.Machine
end

