-- ==== Sys2Proof/Machine/Microcode.lean ====
section
/-! DEFINITION. The microcode the opcode table gives each macro-instruction (44_macro_instructions.md R188, R197, R198) as
signal sets, so that it stands under any SIGBIT, and its installation in a ROM. It is the spec's fixture, not the
MinimumCompute ROM (D2). -/

namespace Sys2Proof.Machine

/-- The three control words of an opcode's row (R188, R198): opcodes without a row of their own words are NOPs (R197). -/
def microcode (op : Byte) : Fin 3 → SignalSet :=
  let fetchOperand : SignalSet := { pcOut := true, marIn := true }
  let toAddress : SignalSet := { ramOut := true, marIn := true, pcInc := true }
  fun k =>
    match op.toNat, k.val with
    | 0x01, 0 => { halt := true }
    | 0x02, 0 => fetchOperand
    | 0x02, 1 => { ramOut := true, aIn := true, pcInc := true }
    | 0x03, 0 => fetchOperand
    | 0x03, 1 => { ramOut := true, bIn := true, pcInc := true }
    | 0x04, 0 => fetchOperand
    | 0x04, 1 => toAddress
    | 0x04, 2 => { ramOut := true, aIn := true }
    | 0x06, 0 => fetchOperand
    | 0x06, 1 => toAddress
    | 0x06, 2 => { aOut := true, ramIn := true }
    | 0x08, 0 => { aluOut := true, aIn := true, flagsIn := true }
    | 0x09, 0 => { aluOut := true, aluSub := true, aIn := true, flagsIn := true }
    | 0x0A, 0 => { aluSub := true, flagsIn := true }
    | 0x0B, 0 => { aOut := true, bOut := true }
    | 0x0F, 0 => { aOut := true }
    | _, _ => {}

/-- The ROM with the word at an address replaced; an address outside the 128 words changes nothing (R55, D23). -/
def romWrite (r : Rom) (addr : RomAddr) (cw : ControlWord) : Rom :=
  if addr.toNat < 128 then Cells.write 0#16 r addr.toNat cw else r

/-- The ROM with an opcode's three words set to its row's microcode under a SIGBIT. -/
def installMicrocode (sb : SigBit) (op : Byte) (r : Rom) : Rom :=
  let put (r : Rom) (k : Fin 3) : Rom := romWrite r (romAddress op k) (encodeSignals sb (microcode op k))
  put (put (put r 0) 1) 2

/-- The state's ROM holds the opcode's row (R188, R198): the three words it selects decode to the row's signal sets. -/
abbrev HoldsMicrocode (op : Byte) (s : State) : Prop :=
  ∀ k : Fin 3, decodeSignals s.cfg.sigbit (romRead s.rom (romAddress op k)) = microcode op k

end Sys2Proof.Machine
end

