-- ==== Sys2Proof/Machine/Fetch.lean ====
section
/-! DEFINITION. Which instruction the next step runs (41_sequencer.md R121, R124), and placing one where the next step
fetches it. -/

namespace Sys2Proof.Machine

/-- The instruction selected by the sequencer's phase: none in Halted (R128); FETCH0 and FETCH1 by their phases (R92); in
Execute(k) the control word at `(IR << 3) | k` (R124). At an instruction boundary under the macro-instruction grain
(log 9), the macro-instruction whose opcode byte is at PC (R185). -/
def fetchInstr (s : State) : Option Instr :=
  match s.phase with
  | .halted => none
  | .fetch0 =>
    match s.grain with
    | .microCycle => some .fetch0
    | .macroInstruction => some (decodeOpcode (readByte s.ram s.pc))
  | .fetch1 => some .fetch1
  | .execute k => some (decodeControlWord s.cfg.sigbit (romRead s.rom (romAddress s.ir k)))

/-- The Execute step at which a control word placed from outside runs: the present one, or 0 outside Execute. -/
def placedStep (s : State) : Fin 3 :=
  match s.phase with
  | .execute k => k
  | .fetch0 | .fetch1 | .halted => 0

/-- A control word stored where the next step reads it: in the ROM at `(IR << 3) | k`, with the sequencer in Execute(k).
An IR of 0x10 or more selects no ROM word (R55) and is replaced by 0x00. -/
def placeControlWord (cw : ControlWord) (s : State) : State :=
  let k := placedStep s
  let ir : Byte := if s.ir.toNat < 16 then s.ir else 0#8
  { s with phase := .execute k, ir := ir, rom := romWrite s.rom (romAddress ir k) cw }

/-- An opcode byte stored at PC, a zero byte after it (the longest row has one operand byte), the row's three control
words in the ROM, and the next step one whole macro-instruction from Fetch0. -/
def placeOpcode (op : Byte) (s : State) : State :=
  { s with
    phase := .fetch0
    grain := .macroInstruction
    ram := writeByte (writeByte s.ram (s.pc + 1) 0#8) s.pc op
    rom := installMicrocode s.cfg.sigbit op s.rom }

end Sys2Proof.Machine
end

