-- ==== Sys2Proof/Machine/Step.lean ====
section
/-! DEFINITION. One step of the machine: the instruction the sequencer selects, run by `exec` (41_sequencer.md R121). -/

namespace Sys2Proof.Machine

/-- One step. In Halted nothing changes (R128). -/
def step (s : State) : Host.Outcome State Fault Refusal :=
  match fetchInstr s with
  | none => .next s
  | some i => exec i s

/-- The state with an instruction of the opcode table placed so that the very next step fetches and runs exactly it: 16
bits are a control word, any other width an opcode byte (log 17). -/
def State.withFetchWord (s : State) (nbits w : Nat) : State :=
  if nbits = 16 then placeControlWord (BitVec.ofNat 16 w) s else placeOpcode (BitVec.ofNat 8 w) s

end Sys2Proof.Machine
end

