-- ==== Sys2Proof/Machine/HostOps.lean ====
section
/-! DEFINITION. What the host can do to the core besides delivering edges (60_exceptions.md R238): the ROM image
(20_memory.md R56), program load (R58) and the read-only snapshot (R236). Construction is `State.construct`. -/

namespace Sys2Proof.Machine

/-- Word `k` of a ROM image: `image[2k] | (image[2k+1] << 8)` (R56). -/
def imageWord (image : List Byte) (k : Nat) : ControlWord := image.getD (2 * k + 1) 0#8 ++ image.getD (2 * k) 0#8

/-- The ROM of an image of exactly 256 bytes; an image of another length is refused (R56, D23). -/
def romOfImage (image : List Byte) : Option Rom :=
  if image.length = 256 then
    some ((List.range 128).filterMap fun k =>
      if imageWord image k = 0#16 then none else some (k, imageWord image k))
  else none

/-- The 256-byte image of a ROM (R56, R86). -/
def imageOfRom (r : Rom) : List Byte :=
  (List.range 128).flatMap fun k =>
    let cw := Cells.read 0#16 r k
    [cw.setWidth 8, (cw >>> 8).setWidth 8]

/-- The loop of program load (R58): each byte whose address is 0..15 is stored, each other byte is dropped and counted. -/
def loadBytes : List Byte → Nat → Memory → Memory × Nat
  | [], _, m => (m, 0)
  | v :: rest, off, m =>
    if off < 16 then loadBytes rest (off + 1) (Cells.write Memory.default m off v)
    else
      let r := loadBytes rest (off + 1) m
      (r.1, r.2 + 1)

/-- Program load (R58): RAM only, with the count of dropped bytes. -/
def loadProgram (bytes : List Byte) (off : Nat) (s : State) : State × Nat :=
  let r := loadBytes bytes off s.ram
  ({ s with ram := r.1 }, r.2)

/-- What the snapshot returns (R236): the non-halted phase is not in it. -/
structure Snapshot where
  pc : Nibble
  mar : Nibble
  ir : Byte
  a : Byte
  b : Byte
  bus : Byte
  flagC : Bool
  flagZ : Bool
  halted : Bool
  cycles : Nat
  instructions : Nat
  ram : List Byte
  deriving DecidableEq, Repr

/-- The snapshot (R236); it changes nothing. -/
def snapshot (s : State) : Snapshot where
  pc := s.pc
  mar := s.mar
  ir := s.ir
  a := s.a
  b := s.b
  bus := s.bus
  flagC := s.flagC
  flagZ := s.flagZ
  halted := decide (s.phase = .halted)
  cycles := s.cycles
  instructions := s.instructions
  ram := (List.range 16).map fun k => readByte s.ram (BitVec.ofNat 4 k)

end Sys2Proof.Machine
end

