-- ==== Sys2Proof/Machine/ClockOps.lean ====
section
/-! DEFINITION. The Clock's operations (60_exceptions.md R222 to R231) over its own state and, through registered
callbacks only, the core. Time is an argument of `start` and `tick`; the model keeps none (R230, R280). -/

namespace Sys2Proof.Machine

/-- The named frequency presets (R231), "a convenience lookup table". -/
inductive FrequencyPreset where
  | slow
  | normal
  | fast
  | turbo
  deriving DecidableEq, Repr

/-- A preset's frequency in Hz (R231). -/
def FrequencyPreset.hz : FrequencyPreset → Rat
  | .slow => 1
  | .normal => 10
  | .fast => 100
  | .turbo => 1000

/-- `configure(frequency_hz)` (R222): none is the rejection of a frequency of 0 or less, which leaves the Clock as it was;
in Manual mode too (U7; log 16). -/
def Clock.configure (c : Clock) (hz : Rat) : Option Clock := if 0 < hz then some { c with period := 1 / hz } else none

/-- `start()` (R223): running, with the present time as the edge reference. -/
def Clock.start (c : Clock) (now : Rat) : Clock := { c with running := true, edgeRef := now }

/-- `stop()` (R223): the cycle count stays. -/
def Clock.stop (c : Clock) : Clock := { c with running := false }

/-- `reset()` (R224): count 0 and level low, nothing else; the core is untouched. -/
def Clock.reset (c : Clock) : Clock := { c with clkCycles := 0, level := .low }

/-- `register(edge, callback)` (R225): appended to that edge's list. -/
def Clock.register (c : Clock) : Edge → Callback → Clock
  | .rising, cb => { c with rising := c.rising ++ [cb] }
  | .falling, cb => { c with falling := c.falling ++ [cb] }

/-- What a fired callback can see of the Clock (R229): rising callbacks run before the level is high, falling ones before
the count advances. -/
inductive Notice where
  | rising (cb : Callback) (levelSeen : Level)
  | falling (cb : Callback) (countSeen : Nat)
  deriving DecidableEq, Repr

/-- The result of `tick` or `step` of the Clock: whether an edge fired (R226), the notifications in order (R229), the
observers whose failure was caught and reported (R228), and the machine after it. Where the core's `Step` stopped, what the
first three fields list is the model's choice (log 21). -/
structure ClockReport where
  fired : Bool
  notices : List Notice
  reported : List Nat
  outcome : Result

/-- One callback: the core's `Step`, or an observer; whether an observer fails changes nothing (R228). DESIGN CHOICE (log
20, unsafe): an observer itself changes neither the core nor the Clock; the source leaves open what a callback mutates. -/
def fireOne (r : Result) : Callback → Result
  | .coreStep => andThen r edge
  | .observer _ => r

/-- The callbacks of one edge, in registration order (R225). A bus contention in the core's `Step` is the fault of the
whole run, not a caught callback fault (U8); what the report lists beside that fault is the model's choice (log 21). -/
def fireAll (cbs : List Callback) (s : State) : Result := cbs.foldl fireOne (.next s)

/-- The observers among the callbacks that fail, in order (R228); whether one fails is the environment's. -/
def failures (failing : Nat → Bool) (cbs : List Callback) : List Nat :=
  cbs.filterMap fun cb =>
    match cb with
    | .coreStep => none
    | .observer n => if failing n then some n else none

/-- Notifications of a rising edge of this clock (R229). -/
def Clock.risingNotices (c : Clock) : List Notice := c.rising.map fun cb => .rising cb c.level

/-- Notifications of a falling edge of this clock (R229). -/
def Clock.fallingNotices (c : Clock) : List Notice := c.falling.map fun cb => .falling cb c.clkCycles

/-- A rising edge: the callbacks, then the level is high (R229). -/
def risingEdge (s : State) : Result :=
  andThen (fireAll s.clock.rising s) fun t => .next { t with clock := { t.clock with level := .high } }

/-- A falling edge: the callbacks, then the level is low and the public count advances (R221, R229). -/
def fallingEdge (s : State) : Result :=
  andThen (fireAll s.clock.falling s) fun t =>
    .next { t with clock := { t.clock with level := .low, clkCycles := t.clock.clkCycles + 1 } }

/-- The edge reference moves after a fired tick: where to, the source leaves unsaid (N14; log 15). -/
def moveEdgeRef (now : Rat) (s : State) : State :=
  { s with clock := { s.clock with edgeRef := Config.edgeRefAfterTick s.clock.edgeRef now s.clock.period } }

/-- Whether `tick()` fires an edge at a time (R223, R226): Continuous, running, and half a period has passed. -/
def Clock.tickFires (c : Clock) (now : Rat) : Bool :=
  decide (c.mode = .continuous) && c.running && decide (c.period / 2 ≤ now - c.edgeRef)

/-- `tick()` (R226): at most one edge, of the kind the level makes due. DESIGN CHOICE (log 21, unsafe): where the core's
`Step` stops, the report still lists every callback of the edge, the later ones too; a stopped run is outside the spec. -/
def clockTick (failing : Nat → Bool) (now : Rat) (s : State) : ClockReport :=
  if s.clock.tickFires now then
    match s.clock.level with
    | .low =>
      { fired := true
        notices := s.clock.risingNotices
        reported := failures failing s.clock.rising
        outcome := andThen (risingEdge s) fun t => .next (moveEdgeRef now t) }
    | .high =>
      { fired := true
        notices := s.clock.fallingNotices
        reported := failures failing s.clock.falling
        outcome := andThen (fallingEdge s) fun t => .next (moveEdgeRef now t) }
  else { fired := false, notices := [], reported := [], outcome := .next s }

/-- `step()` (R227): in Manual mode a rising edge, then a falling edge, whether or not the clock is running. In Continuous
mode the source does not say (N14, V13): refused by name (log 13). DESIGN CHOICE (log 19, unsafe): the source does not say
whether it is allowed while `tick()` has left the level high (N14); the model allows it, with the rising callbacks
seeing the level as it is. DESIGN CHOICE (log 21, unsafe): where the core's `Step` stops, the report still lists every
callback of both edges, the later ones and the whole falling edge too; a stopped run is outside the spec (R213, U8). -/
def clockStep (failing : Nat → Bool) (s : State) : ClockReport :=
  match s.clock.mode with
  | .manual =>
    { fired := true
      notices := s.clock.risingNotices ++ s.clock.fallingNotices
      reported := failures failing (s.clock.rising ++ s.clock.falling)
      outcome := andThen (risingEdge s) fallingEdge }
  | .continuous => { fired := false, notices := [], reported := [], outcome := .refused .clockStepInContinuousMode }

/-- Boot (70_reset_and_hazards.md R263, R264): a ROM image, a core constructed with it, the program loaded at address 0,
and `Step` registered once on the rising edge. None when the image is not 256 bytes long. -/
def boot (image : List Byte) (cfg : Config) (program : List Byte) : Option State :=
  (romOfImage image).map fun rom =>
    let s := (loadProgram program 0 (State.construct rom cfg {})).1
    { s with clock := s.clock.register .rising .coreStep }

end Sys2Proof.Machine
end

