-- ==== Sys2Proof/Safety.lean ====
section
/-! DEFINITION. What counts as a good state and a safe run, and the vocabulary the claims are stated in: the value a bus
source drives and the effect of an Execute micro-step field by field, both written from the rules and not from the
machine's own definitions, so that a claim compares the two. -/

namespace Sys2Proof.Machine

/-- What a micro-step's bus carries when at most one source is asserted (42_signal_execution.md R141, R142, R144 to R148;
43_alu_flags.md R171 to R173): `old` values only. -/
def drivenValue (o : SignalSet) (s : State) : Byte :=
  if o.pcOut then s.pc.setWidth 8
  else if o.ramOut then readByte s.ram s.mar
  else if o.irOut then s.ir
  else if o.aOut then s.a
  else if o.bOut then s.b
  else if o.aluOut then (if o.aluSub then s.a - s.b else s.a + s.b)
  else s.bus

/-- FLAGS.C after FLAGS_IN (R171, R172): the sum exceeds 255, or the subtraction borrows. -/
def carryOf (o : SignalSet) (s : State) : Bool :=
  if o.aluSub then decide (s.a.toNat < s.b.toNat) else decide (255 < s.a.toNat + s.b.toNat)

/-- FLAGS.Z after FLAGS_IN (R175): the masked 8-bit result is 0. -/
def zeroOf (o : SignalSet) (s : State) : Bool :=
  decide ((if o.aluSub then s.a - s.b else s.a + s.b) = 0#8)

/-- The state `t` after Execute micro-step `k` of a word with signal set `o`, without HALT, whose bus carries `v`: every
field of the core, each from the state `s` before it (42_signal_execution.md R140, R163; 41_sequencer.md R127, R129). RAM
is described by reading each of its 16 bytes. -/
structure MicroStepEffect (o : SignalSet) (k : Fin 3) (v : Byte) (s t : State) : Prop where
  bus : t.bus = v
  a : t.a = if o.aIn then v else s.a
  b : t.b = if o.bIn then v else s.b
  ir : t.ir = if o.irIn then v else s.ir
  mar : t.mar = if o.marIn then v.setWidth 4 else s.mar
  pc : t.pc = if o.pcInc then s.pc + 1 else s.pc
  flagC : t.flagC = if o.flagsIn then carryOf o s else s.flagC
  flagZ : t.flagZ = if o.flagsIn then zeroOf o s else s.flagZ
  ram : ∀ x : Nibble, readByte t.ram x = if o.ramIn = true ∧ x = s.mar then v else readByte s.ram x
  phase : t.phase = if k = 2 then .fetch0 else .execute (k + 1)
  cycles : t.cycles = s.cycles + 1
  instructions : t.instructions = if k = 2 then s.instructions + 1 else s.instructions
  rom : t.rom = s.rom
  cfg : t.cfg = s.cfg
  clock : t.clock = s.clock
  grain : t.grain = s.grain

/-- The word may latch flags here: it has no FLAGS_IN, or has ALU_OUT too, or the parameter is the spec's default `latch`
(R177). -/
def FlagsAllowed (o : SignalSet) (s : State) : Prop :=
  o.flagsIn = false ∨ o.aluOut = true ∨ s.cfg.flagsWithoutAluOut = .latch

/-- The Execute micro-step `k` is next, and the word `o` has no HALT and may latch flags: what every completion of a
control word needs, beside its sources. RAM is in canonical form (every step keeps it, `Inv`). -/
structure Ready (o : SignalSet) (k : Fin 3) (s : State) : Prop where
  phase : s.phase = .execute k
  noHalt : o.halt = false
  flags : FlagsAllowed o s
  ram : Memory.wf s.ram = true

/-- The sequencer's part of the invariant (10_state.md R35; 41_sequencer.md R130, R132): the counters fix the phase, and
what the fetch phase has put in MAR, BUS, IR and PC still stands when Execute(0) begins. -/
def SequencerInv (s : State) : Prop :=
  match s.phase with
  | .fetch0 => s.cycles = 5 * s.instructions
  | .fetch1 => s.cycles = 5 * s.instructions + 1 ∧ s.mar = s.pc ∧ s.bus = s.pc.setWidth 8
  | .execute k =>
    s.cycles = 5 * s.instructions + 2 + k.val ∧
      (k = 0 → s.bus = s.ir ∧ s.ir = readByte s.ram s.mar ∧ s.pc = s.mar + 1)
  | .halted => 5 * s.instructions + 3 ≤ s.cycles ∧ s.cycles ≤ 5 * s.instructions + 5

/-- The machine's invariant: both memories in canonical form within their address spaces (20_memory.md R50), and the
sequencer's part. It holds at reset and every step keeps it. -/
def Inv (s : State) : Prop := Memory.wf s.ram = true ∧ Rom.wf s.rom = true ∧ SequencerInv s

/-- A ROM well formed under a SIGBIT (40_control_word_decode.md R114): each of the 48 words the sequencer can read asserts
at most one bus source or HALT. -/
def RomWellFormed (s : State) : Prop :=
  ∀ (op : Byte) (k : Fin 3), op.toNat < 16 →
    (decodeSignals s.cfg.sigbit (romRead s.rom (romAddress op k))).wf = true

/-- A safe state: a run from it neither faults nor is refused (R114: "fully determined for a well-formed ROM"). -/
def SafeState (s : State) : Prop := RomWellFormed s ∧ s.cfg.flagsWithoutAluOut = .latch

/-- `n` steps, stopping at the first fault or refusal. -/
def steps : Nat → State → Result
  | 0, s => .next s
  | n + 1, s => andThen (step s) (steps n)

/-- `n` micro-cycles, stopping at the first fault or refusal. -/
def edges : Nat → State → Result
  | 0, s => .next s
  | n + 1, s => andThen (edge s) (edges n)

/-- The state with both flags cleared: two states with the same image differ at most in FLAGS. -/
def State.eraseFlags (s : State) : State := { s with flagC := false, flagZ := false }

/-- An outcome with the flags of its next state cleared. -/
def eraseFlagsOf : Result → Result
  | .next s => .next s.eraseFlags
  | .fault e => .fault e
  | .refused e => .refused e

end Sys2Proof.Machine
end

