-- ==== Sys2Proof/Certificates/Slice0/Obligations.lean ====
section
/-! DEFINITION. The statements for the provers. Each docstring names the rules of spec/ it formalises, or says that it is
the spec's own decision (D<n>) or the model's choice (log <n>). The hypotheses of each have a named witness in
Sys2Proof/Tests/Slice0.lean (`witness_<Name>`). The premise `s.grain = .microCycle` is about the model's own field (log 9):
a step is then one micro-cycle, the spec's `Step`. -/

open Sys2Proof Sys2Proof.Machine

/-! ### Reset -/

/-- 10_state.md R36: a constructed core, reset among them, is in Fetch0, so not halted, with PC 0. -/
def Obligations.ConstructedCoreStartsAtFetch0WithPcZero : Prop :=
  (∀ rom cfg v, (State.construct rom cfg v).phase = .fetch0 ∧ (State.construct rom cfg v).phase ≠ .halted ∧
    (State.construct rom cfg v).pc = 0#4) ∧
  ∃ rom cfg v, State.reset = State.construct rom cfg v

/-- The spec's decisions, not the source's values: D3 for the registers, the flags, the bus, the counters and RAM
(10_state.md §9; logs 1 and 2), and D1, D7 and D8 for the default SIGBIT, CONTENTION and FLAGS_WITHOUT_ALU_OUT of the last
clause (00_scope.md §4; logs 4, 5 and 6). -/
def Obligations.ResetLeavesTheDecidedZeros : Prop :=
  State.reset.a = 0#8 ∧ State.reset.b = 0#8 ∧ State.reset.mar = 0#4 ∧ State.reset.ir = 0#8 ∧
  State.reset.flagC = false ∧ State.reset.flagZ = false ∧ State.reset.bus = 0#8 ∧
  State.reset.cycles = 0 ∧ State.reset.instructions = 0 ∧ (∀ x : Nibble, readByte State.reset.ram x = 0#8) ∧
  State.reset.cfg = { sigbit := {}, contention := .fault, flagsWithoutAluOut := .latch }

/-! ### Encoding -/

/-- 40_control_word_decode.md R111: signal `s` is asserted exactly when bit SIGBIT(s) is 1, whatever the word; with the
rule's two examples under the default SIGBIT. -/
def Obligations.DecodeIsABitTestPerSignal : Prop :=
  (∀ (sb : SigBit) (cw : ControlWord) (s : Signal), (decodeSignals sb cw).get s = cw.getLsbD (sb.pos s).val) ∧
  decodeSignals {} 0x0A02#16 = { ramOut := true, aIn := true, pcInc := true } ∧ decodeSignals {} 0x8000#16 = {}

/-- Words of spec/opcode_table.json, written out, decode to their rows. Three choices of the model stand behind it: the bit
positions are the default SIGBIT (the spec's D1; log 4), a word of several signals such as 0x2220 is named by its first one
(log 11; the spec says that a word decodes to a set, not to one row), and `decodeTableWord` tells a control word from an
opcode byte by its width (log 17). And every byte is the opcode of exactly the
macro-instruction it decodes to. -/
def Obligations.TableWordsDecodeToTheirRows : Prop :=
  decodeTableWord 16 0x0001 = some (.pcOut {}) ∧ decodeTableWord 16 0x0200 = some (.aIn {}) ∧
  decodeTableWord 16 0x1000 = some (.aluSub {}) ∧ decodeTableWord 16 0x4000 = some (.halt {}) ∧
  decodeTableWord 16 0x0000 = some .nopWord ∧
  decodeTableWord 16 0x2220 = some (.aluOut { aIn := true, flagsIn := true }) ∧
  decodeTableWord 8 0x08 = some .add ∧ decodeTableWord 8 0x0F = some .out ∧
  decodeTableWord 8 0x2A = some (.nopHigh5 0x0A#5) ∧
  ∀ op : Byte, (decodeOpcode op).opcode = some op

/-- Decode and encode agree: for every injective SIGBIT and every well-formed instruction with an encoding, the decoder
gives back the instruction from its bytes, and leaves the bytes after it. -/
def Obligations.DecodeOfEncodeIsTheInstruction : Prop :=
  ∀ (sb : SigBit) (i : Instr) (bytes rest : List Byte), sb.wf = true → i.wf = true → encode sb i = some bytes →
    decodeBytes sb i.format (bytes ++ rest) = .ok (i, rest)

/-- The other direction for control words: encoding what was decoded keeps every bit SIGBIT names and clears the bit it
does not. -/
def Obligations.EncodeOfDecodeKeepsTheNamedBits : Prop :=
  ∀ (sb : SigBit) (cw : ControlWord), sb.wf = true →
    (∀ s : Signal, (encodeSignals sb (decodeSignals sb cw)).getLsbD (sb.pos s).val = cw.getLsbD (sb.pos s).val) ∧
    (∀ p : Fin 16, (∀ s : Signal, sb.pos s ≠ p) →
      (encodeSignals sb (decodeSignals sb cw)).getLsbD p.val = false)

/-- 30_encoding.md R84: two control words that differ only in a bit no signal has are the same instruction, so they behave
identically in every state. -/
def Obligations.BitWithoutASignalIsIgnored : Prop :=
  ∀ (sb : SigBit) (cw cw' : ControlWord) (s : State),
    (∀ g : Signal, cw.getLsbD (sb.pos g).val = cw'.getLsbD (sb.pos g).val) →
    exec (decodeControlWord sb cw) s = exec (decodeControlWord sb cw') s

/-! ### The step -/

/-- A step runs the instruction the sequencer selects, and nothing around it: FETCH0 and FETCH1 by phase, in Execute(k) the
control word the ROM holds at `(IR << 3) | k`, under the macro-instruction grain (log 9) the macro-instruction whose opcode
is at PC; in Halted nothing. -/
def Obligations.StepRunsTheSelectedInstruction : Prop :=
  ∀ s : State,
    (s.phase = .halted → step s = .next s) ∧
    (s.phase = .fetch0 → s.grain = .microCycle → step s = exec .fetch0 s) ∧
    (s.phase = .fetch0 → s.grain = .macroInstruction → step s = exec (decodeOpcode (readByte s.ram s.pc)) s) ∧
    (s.phase = .fetch1 → step s = exec .fetch1 s) ∧
    (∀ k, s.phase = .execute k →
      step s = exec (decodeControlWord s.cfg.sigbit (romRead s.rom (romAddress s.ir k))) s)

/-- The model's `withFetchWord` (log 17): from a state in canonical form, the very next step runs exactly the placed
control word, or the macro-instruction of the placed opcode with its row's microcode in the ROM. -/
def Obligations.PlacedWordIsTheNextInstruction : Prop :=
  ∀ (s : State) (w : Nat), Memory.wf s.ram = true → Rom.wf s.rom = true → s.cfg.sigbit.wf = true →
    (∃ k, (s.withFetchWord 16 w).phase = .execute k) ∧
    step (s.withFetchWord 16 w) = exec (decodeControlWord s.cfg.sigbit (BitVec.ofNat 16 w)) (s.withFetchWord 16 w) ∧
    (s.withFetchWord 8 w).phase = .fetch0 ∧ HoldsMicrocode (BitVec.ofNat 8 w) (s.withFetchWord 8 w) ∧
    step (s.withFetchWord 8 w) = exec (decodeOpcode (BitVec.ofNat 8 w)) (s.withFetchWord 8 w)

/-- 41_sequencer.md §4 (D18): in Halted a step, and any instruction, changes nothing. -/
def Obligations.HaltedAbsorbsEveryInstruction : Prop :=
  ∀ (i : Instr) (s : State), s.phase = .halted → step s = .next s ∧ exec i s = .next s

/-- 41_sequencer.md §7: the transition table, for every step of one micro-cycle that answers a next state. The row of a word
without HALT says "as the signals say": what they say is `MicroStepEffect` (D5, D6, D8, D16, D27). -/
def Obligations.StepFollowsTheTransitionTable : Prop :=
  ∀ s t : State, s.grain = .microCycle → Memory.wf s.ram = true → step s = .next t →
    (s.phase = .halted → t = s) ∧
    (s.phase = .fetch0 →
      t = { s with bus := t.bus, mar := t.mar, phase := .fetch1, cycles := s.cycles + 1 }) ∧
    (s.phase = .fetch1 →
      t = { s with bus := t.bus, ir := t.ir, pc := t.pc, phase := .execute 0, cycles := s.cycles + 1 }) ∧
    (∀ k, s.phase = .execute k →
      ((currentSignals s k).halt = true →
        t = { s with phase := .halted, cycles := s.cycles + 1 }) ∧
      ((currentSignals s k).halt = false →
        MicroStepEffect (currentSignals s k) k t.bus s t ∧
        ((currentSignals s k).sourceCount ≤ 1 → t.bus = drivenValue (currentSignals s k) s)))

/-- 42_signal_execution.md §1, the frame rule (D9 and D11 for a HALT word: the micro-cycle counts, the bus stays; `grain` is
the model's own field, log 9): an Execute micro-step changes A, B, IR, MAR, FLAGS, RAM or PC only where
the word asserts the signal that writes it (and no HALT), RAM only at the old MAR, the bus only where a source is
asserted, and the phase and the counters as the sequencer says. -/
def Obligations.ExecuteChangesOnlyWhatASignalWrites : Prop :=
  ∀ (s t : State) (k : Fin 3), Memory.wf s.ram = true → s.phase = .execute k → step s = .next t →
    (t.a ≠ s.a → (currentSignals s k).aIn = true) ∧
    (t.b ≠ s.b → (currentSignals s k).bIn = true) ∧
    (t.ir ≠ s.ir → (currentSignals s k).irIn = true) ∧
    (t.mar ≠ s.mar → (currentSignals s k).marIn = true) ∧
    (t.pc ≠ s.pc → (currentSignals s k).pcInc = true) ∧
    (t.flagC ≠ s.flagC ∨ t.flagZ ≠ s.flagZ → (currentSignals s k).flagsIn = true) ∧
    (t.bus ≠ s.bus → (currentSignals s k).sourceCount ≠ 0) ∧
    (∀ x, readByte t.ram x ≠ readByte s.ram x → (currentSignals s k).ramIn = true ∧ x = s.mar) ∧
    ((currentSignals s k).halt = true → t = { s with phase := .halted, cycles := s.cycles + 1 }) ∧
    ((currentSignals s k).halt = false →
      t.phase = (if k = 2 then .fetch0 else .execute (k + 1)) ∧ t.cycles = s.cycles + 1 ∧
      t.instructions = (if k = 2 then s.instructions + 1 else s.instructions)) ∧
    t.rom = s.rom ∧ t.cfg = s.cfg ∧ t.clock = s.clock ∧ t.grain = s.grain

/-- 20_memory.md §8, the RAM invariant: among the steps of one micro-cycle only an Execute micro-step asserting RAM_IN,
without HALT, changes RAM. -/
def Obligations.OnlyRamInChangesRam : Prop :=
  ∀ s t : State, s.grain = .microCycle → step s = .next t → t.ram ≠ s.ram →
    ∃ k, s.phase = .execute k ∧ (currentSignals s k).ramIn = true ∧ (currentSignals s k).halt = false

/-- 43_alu_flags.md R179: a step of one micro-cycle that does not execute a word with FLAGS_IN keeps both flags, with
ALU_OUT or without; and nothing clears a flag but a FLAGS_IN whose ALU output is 0 for that flag. -/
def Obligations.FlagsAreStickyWithoutFlagsIn : Prop :=
  ∀ s t : State, s.grain = .microCycle → step s = .next t →
    ((∀ k, s.phase = .execute k → (currentSignals s k).flagsIn = false ∨ (currentSignals s k).halt = true) →
      t.flagC = s.flagC ∧ t.flagZ = s.flagZ) ∧
    (s.flagC = true → t.flagC = false →
      ∃ k, s.phase = .execute k ∧ (currentSignals s k).flagsIn = true ∧ (currentSignals s k).halt = false ∧
        aluCarry (currentSignals s k).aluSub s.a s.b = false) ∧
    (s.flagZ = true → t.flagZ = false →
      ∃ k, s.phase = .execute k ∧ (currentSignals s k).flagsIn = true ∧ (currentSignals s k).halt = false ∧
        aluZero (currentSignals s k).aluSub s.a s.b = false)

/-- 10_state.md §3: PC changes only by +1 mod 16, in Fetch1 or by PC_INC. -/
def Obligations.PcMovesOnlyByOne : Prop :=
  ∀ s t : State, s.grain = .microCycle → step s = .next t →
    t.pc = s.pc ∨ (t.pc = s.pc + 1 ∧
      (s.phase = .fetch1 ∨
        ∃ k, s.phase = .execute k ∧ (currentSignals s k).pcInc = true ∧ (currentSignals s k).halt = false))

/-- The ROM and the open parameters are inputs (20_memory.md §1; 70_reset_and_hazards.md §3): no step changes them, nor the
Clock, in either grain (log 9). -/
def Obligations.StepNeverChangesRomParametersOrClock : Prop :=
  ∀ s t : State, step s = .next t →
    t.rom = s.rom ∧ t.cfg = s.cfg ∧ t.clock = s.clock ∧ t.grain = s.grain

/-- The invariant holds at reset (the reset values are D3's, logs 1 to 3). -/
def Obligations.InvariantHoldsAtReset : Prop := Inv State.reset

/-- The invariant is kept by every step, in either grain: both memories stay in canonical form within their address
spaces, the counters fix the phase (10_state.md §8, 41_sequencer.md §5), and Execute(0) begins with BUS = IR = RAM[MAR] and
PC one past MAR. -/
def Obligations.EveryStepKeepsTheInvariant : Prop := ∀ s t : State, Inv s → step s = .next t → Inv t

/-- 40_control_word_decode.md: with a well-formed ROM (and the default FLAGS_WITHOUT_ALU_OUT, D8) every step, in either
grain, answers a next state, which is safe again. -/
def Obligations.WellFormedRomNeverStops : Prop :=
  ∀ s : State, SafeState s → ∃ t, step s = .next t ∧ SafeState t

/-- 60_exceptions.md §1 (D7, D8): a step of one micro-cycle is refused exactly when an Execute word without HALT has
FLAGS_IN and no ALU_OUT under FLAGS_WITHOUT_ALU_OUT = refuse; it faults exactly when an Execute word without HALT that is
not refused so (`FlagsAllowed`) asserts two or more sources under CONTENTION = fault, with the record of opcode, step and
sources. That the refusal comes before the fault, for a word that meets both, is the model's choice (log 18). -/
def Obligations.StepStopsExactlyWhenTheSpecSays : Prop :=
  ∀ s : State, s.grain = .microCycle →
    (∀ e, step s = .fault e ↔
      ∃ k, s.phase = .execute k ∧ (currentSignals s k).halt = false ∧ FlagsAllowed (currentSignals s k) s ∧
        2 ≤ (currentSignals s k).sourceCount ∧ s.cfg.contention = .fault ∧
        e = .busContention s.ir k (Signal.sources.filter (currentSignals s k).get)) ∧
    (∀ e, step s = .refused e ↔
      ∃ k, s.phase = .execute k ∧ (currentSignals s k).halt = false ∧ ¬ FlagsAllowed (currentSignals s k) s ∧
        e = .flagsInWithoutAluOut)

/-- 70_reset_and_hazards.md §3 and 10_state.md §4: the flags steer nothing. From two states that differ only in FLAGS, a
step (in either grain) has the same outcome up to FLAGS. Where several sources contend under CONTENTION =
any-asserted-source, this is at the same free choice (log 10): both states have the same `freeCount`. -/
def Obligations.FlagsSteerNothing : Prop :=
  ∀ (s : State) (c z : Bool),
    eraseFlagsOf (step { s with flagC := c, flagZ := z }) = eraseFlagsOf (step s)

/-! ### Fetch -/

/-- 41_sequencer.md §2 (D12 for the zero upper bits): FETCH0. -/
def Obligations.Fetch0PutsPcOnBusAndMar : Prop :=
  ∀ s : State, s.phase = .fetch0 →
    exec .fetch0 s =
      .next { s with bus := s.pc.setWidth 8, mar := s.pc, phase := .fetch1, cycles := s.cycles + 1 }

/-- 41_sequencer.md R123: FETCH1. -/
def Obligations.Fetch1LatchesTheOpcode : Prop :=
  ∀ s : State, s.phase = .fetch1 →
    exec .fetch1 s =
      .next { s with
        bus := readByte s.ram s.mar, ir := readByte s.ram s.mar, pc := s.pc + 1, phase := .execute 0,
        cycles := s.cycles + 1 }

/-- 41_sequencer.md R130: the fetch invariant, over two steps. -/
def Obligations.TwoStepsFromFetch0FetchTheOpcode : Prop :=
  ∀ s : State, s.phase = .fetch0 → s.grain = .microCycle →
    ∃ t, steps 2 s = .next t ∧ t.ir = readByte s.ram s.pc ∧ t.pc = s.pc + 1 ∧ t.mar = s.pc ∧
      t.bus = t.ir ∧ t.phase = .execute 0 ∧ t.a = s.a ∧ t.b = s.b ∧ t.flagC = s.flagC ∧ t.flagZ = s.flagZ ∧
      t.ram = s.ram

/-! ### Control words -/

/-- 42_signal_execution.md §1 (D5, old-state reading; D6, kept bus): every control word without HALT and with at most one
bus source completes, and acts as the SET of its signals, whatever signal names it (log 11). -/
def Obligations.ControlWordActsAsItsSet : Prop :=
  ∀ (sb : SigBit) (cw : ControlWord) (s : State) (k : Fin 3),
    Ready (decodeSignals sb cw) k s → (decodeSignals sb cw).sourceCount ≤ 1 →
    ∃ t, exec (decodeControlWord sb cw) s = .next t ∧ t.freeCount = s.freeCount ∧
      MicroStepEffect (decodeSignals sb cw) k (drivenValue (decodeSignals sb cw) s) s t

/-- 42_signal_execution.md §3: A_OUT and B_OUT as the one source of a word, with any other signals. -/
def Obligations.RegisterSourceDrivesTheBus : Prop :=
  decodeControlWord {} 0x0008#16 = .aOut {} ∧ decodeControlWord {} 0x0010#16 = .bOut {} ∧
  ∀ (o : SignalSet) (s : State) (k : Fin 3), Ready o k s → o.sourceCount = 0 →
    (∃ t, exec (.aOut o) s = .next t ∧ MicroStepEffect o k s.a s t) ∧
    (∃ t, exec (.bOut o) s = .next t ∧ MicroStepEffect o k s.b s t)

/-- 42_signal_execution.md §3: RAM_OUT as the one source of a word reads RAM at the old MAR, whatever MAR_IN and RAM_IN do
in the same word; with RAM_IN the byte is written back unchanged. -/
def Obligations.RamSourceDrivesTheByteAtOldMar : Prop :=
  ∀ (o : SignalSet) (s : State) (k : Fin 3), Ready o k s → o.sourceCount = 0 →
    ∃ t, exec (.ramOut o) s = .next t ∧ MicroStepEffect o k (readByte s.ram s.mar) s t ∧
      ∀ x, readByte t.ram x = readByte s.ram x

/-- 42_signal_execution.md §3 (D12 for the bus's upper bits): PC_OUT and IR_OUT as the one source of a word; PC_OUT drives
the PC from before an increment in the same word (D5). -/
def Obligations.PcAndIrSourcesDriveTheBus : Prop :=
  ∀ (o : SignalSet) (s : State) (k : Fin 3), Ready o k s → o.sourceCount = 0 →
    (∃ t, exec (.pcOut o) s = .next t ∧ MicroStepEffect o k (s.pc.setWidth 8) s t) ∧
    (∃ t, exec (.irOut o) s = .next t ∧ MicroStepEffect o k s.ir s t)

/-- 43_alu_flags.md §3: ALU_OUT as the one source of a word drives the 8-bit sum, or with ALU_SUB the difference, of the
old A and B; the flags change only with FLAGS_IN. It needs no parameter: ALU_OUT is in the word. -/
def Obligations.AluSourceDrivesTheResult : Prop :=
  ∀ (o : SignalSet) (s : State) (k : Fin 3),
    s.phase = .execute k → Memory.wf s.ram = true → o.halt = false → o.sourceCount = 0 →
    ∃ t, exec (.aluOut o) s = .next t ∧
      MicroStepEffect o k (if o.aluSub then s.a - s.b else s.a + s.b) s t

/-- 42_signal_execution.md §4: in every word that completes, each asserted sink latches the one bus value of the micro-step,
MAR_IN its low nibble, RAM_IN at the old MAR, a destination without its signal keeps its value, and no sink touches the
flags. The range of words rests on the spec's decisions: the old MAR where the word has MAR_IN too is D5, completion without
a source D6, completion with several sources under CONTENTION = any-asserted-source D7 (logs 5 and 10), and FLAGS_IN without
ALU_OUT in the word D8 (log 6); the five written-out words are under the default SIGBIT, D1 (log 4). -/
def Obligations.EverySinkLatchesTheBusValue : Prop :=
  (decodeControlWord {} 0x0040#16 = .marIn {} ∧ decodeControlWord {} 0x0080#16 = .ramIn {} ∧
    decodeControlWord {} 0x0100#16 = .irIn {} ∧ decodeControlWord {} 0x0200#16 = .aIn {} ∧
    decodeControlWord {} 0x0400#16 = .bIn {}) ∧
  ∀ (o : SignalSet) (s : State) (k : Fin 3),
    Ready o k s → o.sourceCount ≤ 1 ∨ s.cfg.contention = .anyAssertedSource →
    ∃ t, exec (Instr.ofSignals o) s = .next t ∧
      t.mar = (if o.marIn then t.bus.setWidth 4 else s.mar) ∧
      t.ir = (if o.irIn then t.bus else s.ir) ∧
      t.a = (if o.aIn then t.bus else s.a) ∧
      t.b = (if o.bIn then t.bus else s.b) ∧
      (∀ x, readByte t.ram x = if o.ramIn = true ∧ x = s.mar then t.bus else readByte s.ram x) ∧
      (o.flagsIn = false → t.flagC = s.flagC ∧ t.flagZ = s.flagZ)

/-- 42_signal_execution.md §2 and §4 (D6: with no source the bus keeps its value): the five sinks at the head of a word
without a source latch the kept bus. -/
def Obligations.SinkWithoutSourceLatchesTheKeptBus : Prop :=
  ∀ (o : SignalSet) (s : State) (k : Fin 3), Ready o k s → o.sourceCount = 0 →
    (∃ t, exec (.marIn o) s = .next t ∧ MicroStepEffect (o.assert .marIn) k s.bus s t) ∧
    (∃ t, exec (.ramIn o) s = .next t ∧ MicroStepEffect (o.assert .ramIn) k s.bus s t) ∧
    (∃ t, exec (.irIn o) s = .next t ∧ MicroStepEffect (o.assert .irIn) k s.bus s t) ∧
    (∃ t, exec (.aIn o) s = .next t ∧ MicroStepEffect (o.assert .aIn) k s.bus s t) ∧
    (∃ t, exec (.bIn o) s = .next t ∧ MicroStepEffect (o.assert .bIn) k s.bus s t)

/-- 42_signal_execution.md §5: PC_INC adds exactly 1 mod 16 independent of any bus activity: it works in every word that
completes, and asserting it changes neither the bus (with PC_OUT it carries the PC from before the increment, D5; without a
source it is kept, D6) nor the flags. Where several sources contend under CONTENTION = any-asserted-source, the comparison
is at the same free choice (log 10). -/
def Obligations.PcIncAddsOneWhateverTheBusDoes : Prop :=
  decodeControlWord {} 0x0800#16 = .pcInc {} ∧
  ∀ (o : SignalSet) (s : State) (k : Fin 3), Ready o k s →
    (o.sourceCount ≤ 1 ∨ s.cfg.contention = .anyAssertedSource →
      ∃ t u, exec (Instr.ofSignals (o.assert .pcInc)) s = .next t ∧ exec (Instr.ofSignals (o.drop .pcInc)) s = .next u ∧
        t.pc.toNat = (s.pc.toNat + 1) % 16 ∧ u.pc = s.pc ∧ t = { u with pc := t.pc }) ∧
    (o.sourceCount = 0 →
      ∃ t, exec (.pcInc o) s = .next t ∧ t.pc.toNat = (s.pc.toNat + 1) % 16 ∧ t.bus = s.bus ∧
        (o.flagsIn = false → t.flagC = s.flagC ∧ t.flagZ = s.flagZ))

/-- 43_alu_flags.md §3: ALU_SUB drives nothing and latches nothing: in a word with neither ALU_OUT nor FLAGS_IN it has no
effect at all, and with ALU_OUT it selects the difference. At the head of a word it completes, the bus kept (D6). Where
several sources contend under CONTENTION = any-asserted-source, the comparison is at the same free choice (log 10). -/
def Obligations.AluSubOnlySelectsSubtraction : Prop :=
  ∀ (o : SignalSet) (s : State) (k : Fin 3), s.phase = .execute k →
    (o.aluOut = false → o.flagsIn = false →
      exec (Instr.ofSignals (o.assert .aluSub)) s = exec (Instr.ofSignals (o.drop .aluSub)) s) ∧
    (Ready o k s → o.sourceCount = 0 →
      ∃ t, exec (.aluSub o) s = .next t ∧ MicroStepEffect (o.assert .aluSub) k s.bus s t) ∧
    (Ready o k s → o.sourceCount = 0 → o.aluSub = true →
      ∃ t, exec (.aluOut o) s = .next t ∧ t.bus = s.a - s.b)

/-- 43_alu_flags.md §3: FLAGS_IN in the same word as ALU_OUT latches carry and zero of that ALU operation, both together,
whatever the word puts on the bus; and asserting it changes nothing but the flags. Where several sources contend under
CONTENTION = any-asserted-source, the comparison is at the same free choice (log 10). -/
def Obligations.FlagsInLatchesTheAluOfTheSameWord : Prop :=
  decodeControlWord {} 0x2000#16 = .flagsIn {} ∧
  ∀ (o : SignalSet) (s : State) (k : Fin 3),
    Ready o k s → o.sourceCount ≤ 1 ∨ s.cfg.contention = .anyAssertedSource → o.aluOut = true →
    ∃ t u, exec (Instr.ofSignals (o.assert .flagsIn)) s = .next t ∧
      exec (Instr.ofSignals (o.drop .flagsIn)) s = .next u ∧
      t.flagC = aluCarry o.aluSub s.a s.b ∧ t.flagZ = decide (aluResult o.aluSub s.a s.b = 0#8) ∧
      t = { u with flagC := t.flagC, flagZ := t.flagZ }

/-- 43_alu_flags.md §3 (D8; log 6): FLAGS_IN without ALU_OUT latches the combinational ALU under the default parameter,
whatever the bus carries, and is refused under the named alternative. -/
def Obligations.FlagsInWithoutAluOutFollowsTheParameter : Prop :=
  ∀ (o : SignalSet) (s : State) (k : Fin 3),
    s.phase = .execute k → Memory.wf s.ram = true → o.halt = false → o.aluOut = false → o.sourceCount = 0 →
    (s.cfg.flagsWithoutAluOut = .latch →
      ∃ t, exec (.flagsIn o) s = .next t ∧ MicroStepEffect (o.assert .flagsIn) k s.bus s t) ∧
    (s.cfg.flagsWithoutAluOut = .refuse → exec (.flagsIn o) s = .refused .flagsInWithoutAluOut)

/-- 41_sequencer.md §3 (D9, D11): HALT applies nothing else of its word; the micro-cycle counts, the instruction does
not. -/
def Obligations.HaltAppliesNothingElse : Prop :=
  ∀ (o : SignalSet) (s : State) (k : Fin 3), s.phase = .execute k →
    exec (.halt o) s = .next { s with phase := .halted, cycles := s.cycles + 1 }

/-- 30_encoding.md R87: a word that asserts no signal is the NOP word; it changes no register, flag, RAM byte nor the bus;
it advances the sequencer and the counters. Under the default SIGBIT 0x0000 and 0x8000 are the NOP words, and no other word
is. -/
def Obligations.NopWordOnlyAdvances : Prop :=
  (∀ (s : State) (k : Fin 3), s.phase = .execute k →
    exec .nopWord s =
      .next { s with
        phase := if k = 2 then .fetch0 else .execute (k + 1)
        cycles := s.cycles + 1
        instructions := if k = 2 then s.instructions + 1 else s.instructions }) ∧
  (∀ (sb : SigBit) (cw : ControlWord),
    decodeControlWord sb cw = .nopWord ↔ ∀ g : Signal, cw.getLsbD (sb.pos g).val = false) ∧
  (∀ cw : ControlWord, decodeControlWord {} cw = .nopWord ↔ cw = 0x0000#16 ∨ cw = 0x8000#16)

/-- 42_signal_execution.md §2 (D7; logs 5 and 10): a word without HALT that asserts two or more sources has no next state
under CONTENTION = fault, with the record of opcode, step and asserted sources; under CONTENTION = any-asserted-source the
micro-step goes on with the value of one of the asserted sources, whichever; nothing says which. -/
def Obligations.TwoSourcesFollowTheContentionParameter : Prop :=
  ∀ (o : SignalSet) (s : State) (k : Fin 3), Ready o k s → 2 ≤ o.sourceCount →
    (s.cfg.contention = .fault →
      exec (Instr.ofSignals o) s = .fault (.busContention s.ir k (Signal.sources.filter o.get))) ∧
    (s.cfg.contention = .anyAssertedSource →
      ∃ t x, exec (Instr.ofSignals o) s = .next t ∧ x ∈ Signal.sources ∧ o.get x = true ∧
        MicroStepEffect o k (drivenValue ({ aluSub := o.aluSub : SignalSet }.assert x) s) s t)

/-- The model's choice (log 12): a micro-operation or a macro-instruction handed to `exec` in a phase in which the
sequencer never selects it is refused by name. -/
def Obligations.WrongPhaseIsRefused : Prop :=
  ∀ s : State,
    (∀ sb cw, s.phase = .fetch0 ∨ s.phase = .fetch1 → exec (decodeControlWord sb cw) s = .refused .wrongPhase) ∧
    (s.phase = .fetch0 → exec .fetch1 s = .refused .wrongPhase) ∧
    (s.phase = .fetch1 → exec .fetch0 s = .refused .wrongPhase) ∧
    (∀ k, s.phase = .execute k → exec .fetch0 s = .refused .wrongPhase ∧ exec .fetch1 s = .refused .wrongPhase) ∧
    (∀ op k, s.phase = .fetch1 ∨ s.phase = .execute k → exec (decodeOpcode op) s = .refused .wrongPhase)

/-- 41_sequencer.md §3 (derived there from R124): IR_IN at step 0 or 1 changes which ROM word the next step of the same
instruction reads. -/
def Obligations.IrInRedirectsTheRestOfTheInstruction : Prop :=
  ∀ (s t : State) (k : Fin 3),
    s.phase = .execute k → k ≠ 2 → (currentSignals s k).irIn = true → (currentSignals s k).halt = false →
    step s = .next t →
    fetchInstr t =
      some (decodeControlWord s.cfg.sigbit (romRead s.rom ((t.bus.setWidth 11 <<< 3) ||| BitVec.ofNat 11 (k.val + 1))))

/-! ### Macro-instructions -/

/-- 44_macro_instructions.md R185: for every ROM, a macro-instruction is the five micro-cycles Fetch0, Fetch1, Execute(0),
Execute(1), Execute(2): after the two fetch micro-operations MAR, BUS, IR and PC are as the rule says, the next three steps
run the three control words its opcode selects, and running it as one instruction has the outcome of those five steps. -/
def Obligations.MacroInstructionIsFiveMicroCycles : Prop :=
  ∀ s : State, s.phase = .fetch0 → s.grain = .microCycle →
    exec (decodeOpcode (readByte s.ram s.pc)) s = steps 5 s ∧
    steps 5 s =
      steps 3 { s with
        mar := s.pc, bus := readByte s.ram s.pc, ir := readByte s.ram s.pc, pc := s.pc + 1, phase := .execute 0,
        cycles := s.cycles + 2 } ∧
    ∀ (t : State) (k : Fin 3), t.phase = .execute k →
      step t = exec (decodeControlWord t.cfg.sigbit (romRead t.rom ((t.ir.setWidth 11 <<< 3) ||| BitVec.ofNat 11 k.val))) t

/-- 44_macro_instructions.md R196: opcodes 0x10 to 0xFF are one-byte no-operations, for every ROM. -/
def Obligations.OutOfRangeOpcodesAreNops : Prop :=
  ∀ s : State, s.phase = .fetch0 →
    (∀ (i : Instr) (op : Byte), i.opcode = some op → 0x10 ≤ op.toNat →
      exec i s = .next { s with
        mar := s.pc, bus := op, ir := op, pc := s.pc + 1, instructions := s.instructions + 1,
        cycles := s.cycles + 5 }) ∧
    (∀ x7 x6 x5 x4, (Instr.nopHigh7 x7).opcode = some (1#1 ++ x7) ∧ (Instr.nopHigh6 x6).opcode = some (1#2 ++ x6) ∧
      (Instr.nopHigh5 x5).opcode = some (1#3 ++ x5) ∧ (Instr.nopHigh4 x4).opcode = some (1#4 ++ x4))

/-- 44_macro_instructions.md §3 (D2): NOP, NOP_0x05, NOP_0x07, NOP_0x0C, NOP_0x0D and NOP_0x0E, with their rows' zero
microcode in the ROM, are no-operations. -/
def Obligations.ZeroMicrocodeOpcodesAreNops : Prop :=
  ∀ (s : State) (i : Instr) (op : Byte),
    (i, op) ∈ [(Instr.nop, 0x00#8), (.nop05, 0x05#8), (.nop07, 0x07#8), (.nop0C, 0x0C#8), (.nop0D, 0x0D#8),
      (.nop0E, 0x0E#8)] →
    s.phase = .fetch0 → HoldsMicrocode op s →
    exec i s = .next { s with
      mar := s.pc, bus := op, ir := op, pc := s.pc + 1, instructions := s.instructions + 1, cycles := s.cycles + 5 }

/-- 44_macro_instructions.md §3 (D2): HLT halts after 3 micro-cycles with PC past its byte; it is not counted. -/
def Obligations.HltHaltsAfterThreeMicroCycles : Prop :=
  ∀ s : State, s.phase = .fetch0 → HoldsMicrocode 0x01#8 s →
    exec .hlt s = .next { s with
      mar := s.pc, bus := 0x01#8, ir := 0x01#8, pc := s.pc + 1, phase := .halted, cycles := s.cycles + 3 }

/-- 44_macro_instructions.md §3 and §4 (D2): LDI_A and LDI_B load the byte after the opcode, LDA the byte at the address in
bits 3..0 of the byte after the opcode; no flags. -/
def Obligations.LoadsTakeTheOperandByteOrTheByteItNames : Prop :=
  ∀ s : State, s.phase = .fetch0 →
    (HoldsMicrocode 0x02#8 s →
      exec .ldiA s = .next { s with
        a := readByte s.ram (s.pc + 1), bus := readByte s.ram (s.pc + 1), mar := s.pc + 1, ir := 0x02#8, pc := s.pc + 2,
        instructions := s.instructions + 1, cycles := s.cycles + 5 }) ∧
    (HoldsMicrocode 0x03#8 s →
      exec .ldiB s = .next { s with
        b := readByte s.ram (s.pc + 1), bus := readByte s.ram (s.pc + 1), mar := s.pc + 1, ir := 0x03#8, pc := s.pc + 2,
        instructions := s.instructions + 1, cycles := s.cycles + 5 }) ∧
    (HoldsMicrocode 0x04#8 s →
      exec .lda s = .next { s with
        a := readByte s.ram ((readByte s.ram (s.pc + 1)).setWidth 4),
        bus := readByte s.ram ((readByte s.ram (s.pc + 1)).setWidth 4),
        mar := (readByte s.ram (s.pc + 1)).setWidth 4, ir := 0x04#8, pc := s.pc + 2,
        instructions := s.instructions + 1, cycles := s.cycles + 5 })

/-- 44_macro_instructions.md §3 (D2): STA stores A at the address in bits 3..0 of the byte after the opcode; every other
byte of RAM reads as before. -/
def Obligations.StaStoresAAtTheOperandAddress : Prop :=
  ∀ s : State, s.phase = .fetch0 → Memory.wf s.ram = true → HoldsMicrocode 0x06#8 s →
    ∃ t, exec .sta s = .next t ∧
      t = { s with
        ram := t.ram, bus := s.a, mar := (readByte s.ram (s.pc + 1)).setWidth 4, ir := 0x06#8, pc := s.pc + 2,
        instructions := s.instructions + 1, cycles := s.cycles + 5 } ∧
      readByte t.ram ((readByte s.ram (s.pc + 1)).setWidth 4) = s.a ∧
      ∀ x, x ≠ (readByte s.ram (s.pc + 1)).setWidth 4 → readByte t.ram x = readByte s.ram x

/-- 44_macro_instructions.md §3 and §4 (D2; D16 for zero, D27 for SUB's borrow): ADD and SUB. -/
def Obligations.AddAndSubLatchResultAndFlags : Prop :=
  ∀ s : State, s.phase = .fetch0 →
    (HoldsMicrocode 0x08#8 s →
      exec .add s = .next { s with
        a := s.a + s.b, bus := s.a + s.b, flagC := decide (255 < s.a.toNat + s.b.toNat),
        flagZ := decide (s.a + s.b = 0#8), mar := s.pc, ir := 0x08#8, pc := s.pc + 1,
        instructions := s.instructions + 1, cycles := s.cycles + 5 }) ∧
    (HoldsMicrocode 0x09#8 s →
      exec .sub s = .next { s with
        a := s.a - s.b, bus := s.a - s.b, flagC := decide (s.a.toNat < s.b.toNat), flagZ := decide (s.a = s.b),
        mar := s.pc, ir := 0x09#8, pc := s.pc + 1, instructions := s.instructions + 1, cycles := s.cycles + 5 })

/-- 44_macro_instructions.md §3 (D2, D24): OUT puts A on the bus; nothing else changes. -/
def Obligations.OutPutsAOnTheBus : Prop :=
  ∀ s : State, s.phase = .fetch0 → HoldsMicrocode 0x0F#8 s →
    exec .out s = .next { s with
      bus := s.a, mar := s.pc, ir := 0x0F#8, pc := s.pc + 1, instructions := s.instructions + 1,
      cycles := s.cycles + 5 }

/-- 44_macro_instructions.md §4 (D2, D8): CMP changes only the flags; the bus keeps the opcode. Under the named alternative
its word is refused. -/
def Obligations.CmpChangesOnlyTheFlags : Prop :=
  ∀ s : State, s.phase = .fetch0 → HoldsMicrocode 0x0A#8 s →
    (s.cfg.flagsWithoutAluOut = .latch →
      exec .cmp s = .next { s with
        flagC := decide (s.a.toNat < s.b.toNat), flagZ := decide (s.a = s.b), bus := 0x0A#8, mar := s.pc, ir := 0x0A#8,
        pc := s.pc + 1, instructions := s.instructions + 1, cycles := s.cycles + 5 }) ∧
    (s.cfg.flagsWithoutAluOut = .refuse → exec .cmp s = .refused .flagsInWithoutAluOut)

/-- 44_macro_instructions.md §4 (D2, D7): BAD asserts A_OUT and B_OUT together: the fault of bus contention at step 0 by
default; under CONTENTION = any-asserted-source it completes with A or B on the bus, nothing says which. -/
def Obligations.BadContendsForTheBus : Prop :=
  ∀ s : State, s.phase = .fetch0 → HoldsMicrocode 0x0B#8 s →
    (s.cfg.contention = .fault → exec .bad s = .fault (.busContention 0x0B#8 0 [.aOut, .bOut])) ∧
    (s.cfg.contention = .anyAssertedSource →
      ∃ v, (v = s.a ∨ v = s.b) ∧
        exec .bad s = .next { s with
          bus := v, mar := s.pc, ir := 0x0B#8, pc := s.pc + 1, instructions := s.instructions + 1,
          cycles := s.cycles + 5, freeCount := s.freeCount + 1 })

/-! ### The ALU -/

/-- 43_alu_flags.md R171: addition. -/
def Obligations.AdditionWrapsAndCarriesAbove255 : Prop :=
  ∀ a b : Byte, (aluResult false a b).toNat = (a.toNat + b.toNat) % 256 ∧
    (aluCarry false a b = true ↔ 255 < a.toNat + b.toNat)

/-- 43_alu_flags.md §2 (D27, the carry is a borrow; D16, zero from the masked result): subtraction, and the zero output of
both operations. On subtraction carry and zero exclude each other. -/
def Obligations.SubtractionBorrowsAndZeroIsMasked : Prop :=
  ∀ a b : Byte, (aluResult true a b).toNat = (a.toNat + (256 - b.toNat)) % 256 ∧
    (aluCarry true a b = true ↔ a.toNat < b.toNat) ∧ (aluZero true a b = true ↔ a = b) ∧
    (aluZero false a b = true ↔ a.toNat + b.toNat = 0 ∨ a.toNat + b.toNat = 256) ∧
    ¬ (aluCarry true a b = true ∧ aluZero true a b = true)

/-! ### Memory, ROM image, program load -/

/-- 20_memory.md §2: MemWrite sets one byte and leaves the other 15, and the canonical form is kept; and RAM is plain data
with one form: canonical memories that read alike at all 16 addresses are equal. -/
def Obligations.MemWriteSetsOneByteOfACanonicalRam : Prop :=
  (∀ (m : Memory) (a : Nibble) (v : Byte), Memory.wf m = true →
    readByte (writeByte m a v) a = v ∧ (∀ x, x ≠ a → readByte (writeByte m a v) x = readByte m x) ∧
    Memory.wf (writeByte m a v) = true) ∧
  ∀ m n : Memory, Memory.wf m = true → Memory.wf n = true → (∀ x, readByte m x = readByte n x) → m = n

/-- 20_memory.md §2 and 30_encoding.md §3 (D13: the address is not truncated): the word address is 8 * IR + step, and an
address of 128 or more, that is an opcode of 0x10 or more, reads the NOP word. -/
def Obligations.RomAddressIsNotTruncated : Prop :=
  ∀ (r : Rom) (op : Byte) (k : Fin 3),
    (romAddress op k).toNat = 8 * op.toNat + k.val ∧
    (16 ≤ op.toNat → romRead r (romAddress op k) = 0x0000#16) ∧
    (op.toNat < 16 → romRead r (romAddress op k) = Cells.read 0#16 r (8 * op.toNat + k.val))

/-- 20_memory.md R58: program load, byte by byte: what each RAM byte reads after it, how many bytes are dropped, and that
nothing but RAM changes. -/
def Obligations.ProgramLoadStoresOrDropsEachByte : Prop :=
  ∀ (bytes : List Byte) (off : Nat) (s : State), Memory.wf s.ram = true →
    (∀ x : Nibble, readByte (loadProgram bytes off s).1.ram x =
      if off ≤ x.toNat ∧ x.toNat < off + bytes.length then bytes.getD (x.toNat - off) 0#8 else readByte s.ram x) ∧
    (loadProgram bytes off s).2 = bytes.length - (16 - off) ∧
    (loadProgram bytes off s).1 = { s with ram := (loadProgram bytes off s).1.ram } ∧
    Memory.wf (loadProgram bytes off s).1.ram = true

/-- 20_memory.md §3: the ROM image is exactly 256 bytes, little-endian pairs; that an image of another length is refused is
the spec's decision D23 (log 14). -/
def Obligations.RomImageIsLittleEndianPairs : Prop :=
  ∀ image : List Byte,
    (image.length ≠ 256 → romOfImage image = none) ∧
    (image.length = 256 →
      ∃ r, romOfImage image = some r ∧ Rom.wf r = true ∧
        ∀ k : Nat, k < 128 →
          (Cells.read 0#16 r k).toNat = (image.getD (2 * k) 0#8).toNat + 256 * (image.getD (2 * k + 1) 0#8).toNat)

/-! ### The Clock -/

/-- 60_exceptions.md §7: in Manual mode `step()` fires every rising callback, then every falling one, in order, then adds
1 to the public count and leaves the level low, whether or not the clock runs, and at either level (that it is allowed while
the level is high is the model's choice, log 19); with the core's `Step` registered once on
the rising edge, among any observers, it is exactly one micro-cycle of the core. The model's choices: observers change
nothing (log 20), and the notifications are the same where the core's `Step` stops (log 21). -/
def Obligations.ManualClockStepIsOneMicroCycle : Prop :=
  ∀ (failing : Nat → Bool) (s : State), s.clock.mode = .manual →
    (clockStep failing s).fired = true ∧
    (clockStep failing s).notices =
      (s.clock.rising.map fun cb => Notice.rising cb s.clock.level) ++
        s.clock.falling.map (fun cb => Notice.falling cb s.clock.clkCycles) ∧
    (∀ t, (clockStep failing s).outcome = .next t →
      t.clock = { s.clock with level := .low, clkCycles := s.clock.clkCycles + 1 }) ∧
    (∀ before after falling : List Nat,
      s.clock.rising = before.map Callback.observer ++ [Callback.coreStep] ++ after.map Callback.observer →
      s.clock.falling = falling.map Callback.observer →
      (clockStep failing s).outcome =
        andThen (edge s) fun t =>
          .next { t with clock := { s.clock with level := .low, clkCycles := s.clock.clkCycles + 1 } })

/-- 60_exceptions.md §7: `tick()` fires exactly in Continuous mode, while running, when half a period has passed since the
edge reference; otherwise, in Manual mode and while stopped among others, it is a no-op. It fires one edge, the one the
level makes due, with that edge's callbacks in order: every registered core `Step` runs one micro-cycle, so the core
registered once on the rising edge runs exactly one; only a falling edge advances the public count. Where the edge
reference moves to, the source leaves unsaid (log 15). The model's choices: observers change
nothing (log 20), and the notifications are the same where the core's `Step` stops (log 21). -/
def Obligations.TickFiresTheDueEdge : Prop :=
  ∀ (failing : Nat → Bool) (now : Rat) (s : State),
    ((clockTick failing now s).fired = true ↔
      s.clock.mode = .continuous ∧ s.clock.running = true ∧ s.clock.period / 2 ≤ now - s.clock.edgeRef) ∧
    ((clockTick failing now s).fired = false →
      (clockTick failing now s).outcome = .next s ∧ (clockTick failing now s).notices = [] ∧
        (clockTick failing now s).reported = []) ∧
    ((clockTick failing now s).fired = true → s.clock.level = .low →
      (clockTick failing now s).notices = s.clock.rising.map (fun cb => Notice.rising cb .low) ∧
      ∃ ref : Rat,
        (clockTick failing now s).outcome =
          andThen (edges (s.clock.rising.count .coreStep) s) (fun t =>
            .next { t with clock := { s.clock with level := .high, edgeRef := ref } }) ∧
        (s.clock.rising.count .coreStep = 1 →
          (clockTick failing now s).outcome =
            andThen (edge s) fun t => .next { t with clock := { s.clock with level := .high, edgeRef := ref } })) ∧
    ((clockTick failing now s).fired = true → s.clock.level = .high →
      (clockTick failing now s).notices = s.clock.falling.map (fun cb => Notice.falling cb s.clock.clkCycles) ∧
      ∃ ref : Rat,
        (clockTick failing now s).outcome =
          andThen (edges (s.clock.falling.count .coreStep) s) fun t =>
            .next { t with
              clock := { s.clock with level := .low, clkCycles := s.clock.clkCycles + 1, edgeRef := ref } })

/-- 60_exceptions.md §7: failing observers are caught and reported and stop nothing: neither the outcome nor the
notifications, of `step()` and of `tick()`, depend on which observers fail (so every callback after a failing one still
runs), and exactly the failing observers of the edges that fired are reported: of both edges by `step()` in Manual mode, of
the due edge by `tick()`. That `step()` fires both edges while the level is high too is the model's choice (log 19). So are
two more: an observer, failing or not, changes no state (log 20), and what is notified and reported is the same where the
core's `Step` stops (log 21). -/
def Obligations.FailingObserversChangeNothing : Prop :=
  ∀ (f g : Nat → Bool) (now : Rat) (s : State),
    (clockStep f s).outcome = (clockStep g s).outcome ∧ (clockStep f s).notices = (clockStep g s).notices ∧
    (clockTick f now s).outcome = (clockTick g now s).outcome ∧
    (clockTick f now s).notices = (clockTick g now s).notices ∧
    (s.clock.mode = .manual → ∀ n,
      n ∈ (clockStep f s).reported ↔
        f n = true ∧ (Callback.observer n ∈ s.clock.rising ∨ Callback.observer n ∈ s.clock.falling)) ∧
    ((clockTick f now s).fired = true → s.clock.level = .low → ∀ n,
      n ∈ (clockTick f now s).reported ↔ f n = true ∧ Callback.observer n ∈ s.clock.rising) ∧
    ((clockTick f now s).fired = true → s.clock.level = .high → ∀ n,
      n ∈ (clockTick f now s).reported ↔ f n = true ∧ Callback.observer n ∈ s.clock.falling)
end

