-- ==== Sys2Proof/Laws/Alu.lean ====
section
/-! SUPPORT. The ALU's exact-integer definition (43_alu_flags.md R170) as bit-vector arithmetic and comparisons of the
unsigned operands (R171, R172, R175). -/

namespace Sys2Proof.Machine

theorem aluResult_add (a b : Byte) : aluResult false a b = a + b := by
  apply BitVec.eq_of_toNat_eq
  simp only [aluResult, aluRaw, BitVec.toNat_ofInt, BitVec.toNat_add]
  simp
  omega

theorem aluResult_sub (a b : Byte) : aluResult true a b = a - b := by
  apply BitVec.eq_of_toNat_eq
  have := a.isLt
  have := b.isLt
  simp only [aluResult, aluRaw, BitVec.toNat_ofInt, BitVec.toNat_sub]
  simp
  omega

theorem aluResult_eq (sub : Bool) (a b : Byte) : aluResult sub a b = if sub then a - b else a + b := by
  cases sub
  · simp [aluResult_add]
  · simp [aluResult_sub]

theorem aluCarry_add (a b : Byte) : aluCarry false a b = decide (255 < a.toNat + b.toNat) := by
  simp only [aluCarry, aluRaw, Bool.false_eq_true, if_false]
  rw [Bool.eq_iff_iff]
  simp
  omega

theorem aluCarry_sub (a b : Byte) : aluCarry true a b = decide (a.toNat < b.toNat) := by
  have := a.isLt
  simp only [aluCarry, aluRaw, if_true]
  rw [Bool.eq_iff_iff]
  simp
  omega

theorem aluZero_eq (sub : Bool) (a b : Byte) :
    aluZero sub a b = decide ((if sub then a - b else a + b) = 0#8) := by
  simp only [aluZero, aluResult_eq]
  rfl

end Sys2Proof.Machine
end

