-- ==== Sys2Proof/Laws/Memory.lean ====
section
/-! SUPPORT. The laws of cell lists and of the RAM and ROM primitives over them: read after write, every other address
unchanged, the canonical form kept, and canonical lists that read alike are equal (20_memory.md R53 to R55). -/

namespace Sys2Proof.Machine

section Cells

variable {α : Type} [DecidableEq α] {d : α} {bound : Nat}

/-- Below its first address a canonical list reads the default. -/
theorem Cells.read_below : ∀ {l : List (Nat × α)} {lo a : Nat}, Cells.wfFrom d bound lo l = true → a < lo →
    Cells.read d l a = d
  | [], _, _, _, _ => rfl
  | (k, v) :: rest, lo, a, h, ha => by
    simp only [Cells.wfFrom, Bool.and_eq_true, decide_eq_true_eq] at h
    have hne : k ≠ a := by omega
    simp only [Cells.read, hne, if_false]
    exact Cells.read_below h.2 (by omega)

/-- A canonical list is canonical from any lower address. -/
theorem Cells.wfFrom_mono : ∀ {l : List (Nat × α)} {lo lo' : Nat}, Cells.wfFrom d bound lo l = true → lo' ≤ lo →
    Cells.wfFrom d bound lo' l = true
  | [], _, _, _, _ => rfl
  | (k, v) :: rest, lo, lo', h, hl => by
    simp only [Cells.wfFrom, Bool.and_eq_true, decide_eq_true_eq] at h ⊢
    exact ⟨⟨⟨by omega, h.1.1.2⟩, h.1.2⟩, h.2⟩

/-- Read after write at the same address. -/
theorem Cells.read_write_same : ∀ {l : List (Nat × α)} {lo : Nat} (a : Nat) (v : α), Cells.wfFrom d bound lo l = true →
    Cells.read d (Cells.write d l a v) a = v
  | [], _, a, v, _ => by
    by_cases hv : v = d <;> simp [Cells.write, Cells.read, hv]
  | (k, w) :: rest, lo, a, v, h => by
    simp only [Cells.wfFrom, Bool.and_eq_true, decide_eq_true_eq] at h
    rcases Nat.lt_trichotomy a k with hlt | heq | hgt
    · have hne : k ≠ a := by omega
      by_cases hv : v = d
      · simp [Cells.write, hlt, hv, Cells.read, hne, Cells.read_below h.2 (show a < k + 1 by omega)]
      · simp [Cells.write, hlt, hv, Cells.read]
    · by_cases hv : v = d
      · simp [Cells.write, heq, hv, Cells.read_below h.2 (show k < k + 1 by omega)]
      · simp [Cells.write, heq, hv, Cells.read]
    · have h1 : ¬ a < k := by omega
      have h2 : a ≠ k := by omega
      simp [Cells.write, h1, h2, Cells.read, Ne.symm h2, Cells.read_write_same a v h.2]

/-- A write leaves every other address alone. -/
theorem Cells.read_write_other : ∀ {l : List (Nat × α)} {a x : Nat} (v : α), x ≠ a →
    Cells.read d (Cells.write d l a v) x = Cells.read d l x
  | [], a, x, v, hx => by
    by_cases hv : v = d <;> simp [Cells.write, Cells.read, hv, hx.symm]
  | (k, w) :: rest, a, x, v, hx => by
    rcases Nat.lt_trichotomy a k with hlt | heq | hgt
    · by_cases hv : v = d <;> simp [Cells.write, hlt, hv, Cells.read, hx.symm]
    · subst heq
      by_cases hv : v = d <;> simp [Cells.write, hv, Cells.read, hx.symm]
    · have h1 : ¬ a < k := by omega
      have h2 : a ≠ k := by omega
      simp [Cells.write, h1, h2, Cells.read, Cells.read_write_other v hx]

/-- A write below the bound keeps the canonical form. -/
theorem Cells.write_wf : ∀ {l : List (Nat × α)} {lo a : Nat} (v : α), Cells.wfFrom d bound lo l = true → lo ≤ a →
    a < bound → Cells.wfFrom d bound lo (Cells.write d l a v) = true
  | [], lo, a, v, _, hlo, hb => by
    by_cases hv : v = d <;> simp [Cells.write, Cells.wfFrom, hv, hlo, hb]
  | (k, w) :: rest, lo, a, v, h, hlo, hb => by
    have h' := h
    simp only [Cells.wfFrom, Bool.and_eq_true, decide_eq_true_eq] at h'
    rcases Nat.lt_trichotomy a k with hlt | heq | hgt
    · by_cases hv : v = d
      · simpa [Cells.write, hlt, hv] using h
      · have hk : a + 1 ≤ k := by omega
        simp_all [Cells.write, Cells.wfFrom]
    · subst heq
      by_cases hv : v = d
      · simpa [Cells.write, hv] using Cells.wfFrom_mono h'.2 (by omega)
      · simp_all [Cells.write, Cells.wfFrom]
    · have h1 : ¬ a < k := by omega
      have h2 : a ≠ k := by omega
      have h3 := Cells.write_wf (a := a) v h'.2 (by omega) hb
      simp only [Cells.write, h1, h2, if_false, Cells.wfFrom, h3, h'.1, decide_true, Bool.and_true]
      simp [h'.1.2]

/-- A canonical list is the default from its bound on. -/
theorem Cells.read_beyond : ∀ {l : List (Nat × α)} {lo a : Nat}, Cells.wfFrom d bound lo l = true → bound ≤ a →
    Cells.read d l a = d
  | [], _, _, _, _ => rfl
  | (k, v) :: rest, lo, a, h, ha => by
    simp only [Cells.wfFrom, Bool.and_eq_true, decide_eq_true_eq] at h
    have hne : k ≠ a := by omega
    simp only [Cells.read, hne, if_false]
    exact Cells.read_beyond h.2 ha

/-- Canonical lists that read alike at every address are equal. -/
theorem Cells.ext : ∀ {l m : List (Nat × α)} {lo lo' : Nat}, Cells.wfFrom d bound lo l = true →
    Cells.wfFrom d bound lo' m = true → (∀ a, Cells.read d l a = Cells.read d m a) → l = m
  | [], [], _, _, _, _, _ => rfl
  | [], (k, v) :: rest, _, _, _, hm, h => by
    simp only [Cells.wfFrom, Bool.and_eq_true, decide_eq_true_eq] at hm
    exact absurd (by simpa [Cells.read] using (h k).symm) hm.1.2
  | (k, v) :: rest, [], _, _, hl, _, h => by
    simp only [Cells.wfFrom, Bool.and_eq_true, decide_eq_true_eq] at hl
    exact absurd (by simpa [Cells.read] using h k) hl.1.2
  | (k, v) :: rest, (j, w) :: more, lo, lo', hl, hm, h => by
    simp only [Cells.wfFrom, Bool.and_eq_true, decide_eq_true_eq] at hl hm
    have hkj : k = j := by
      rcases Nat.lt_trichotomy k j with hlt | heq | hgt
      · have := h k
        simp [Cells.read, show j ≠ k by omega, Cells.read_below hm.2 (show k < j + 1 by omega)] at this
        exact absurd this hl.1.2
      · exact heq
      · have := h j
        simp [Cells.read, show k ≠ j by omega, Cells.read_below hl.2 (show j < k + 1 by omega)] at this
        exact absurd this.symm hm.1.2
    subst hkj
    have hv : v = w := by simpa [Cells.read] using h k
    subst hv
    have hrest : rest = more := Cells.ext hl.2 hm.2 fun a => by
      by_cases ha : a = k
      · subst ha
        rw [Cells.read_below hl.2 (by omega), Cells.read_below hm.2 (by omega)]
      · simpa [Cells.read, Ne.symm ha] using h a
    rw [hrest]

end Cells

/-! ### RAM -/

theorem readByte_writeByte_same {m : Memory} (h : Memory.wf m = true) (a : Nibble) (v : Byte) :
    readByte (writeByte m a v) a = v := Cells.read_write_same _ _ h

theorem readByte_writeByte_other (m : Memory) {a x : Nibble} (v : Byte) (hx : x ≠ a) :
    readByte (writeByte m a v) x = readByte m x :=
  Cells.read_write_other v fun h => hx (BitVec.eq_of_toNat_eq h)

theorem writeByte_wf {m : Memory} (h : Memory.wf m = true) (a : Nibble) (v : Byte) :
    Memory.wf (writeByte m a v) = true := Cells.write_wf v h (Nat.zero_le _) a.isLt

/-- What a RAM byte reads after a store, in one equation. -/
theorem readByte_writeByte {m : Memory} (h : Memory.wf m = true) (a x : Nibble) (v : Byte) :
    readByte (writeByte m a v) x = if x = a then v else readByte m x := by
  by_cases hx : x = a
  · simp [hx, readByte_writeByte_same h]
  · simp [hx, readByte_writeByte_other m v hx]

/-! ### ROM -/

/-- The ROM word address is `8 * IR + step` (30_encoding.md R85). -/
theorem romAddress_toNat (ir : Byte) (k : Fin 3) : (romAddress ir k).toNat = 8 * ir.toNat + k.val := by
  have hor : ∀ (x : Byte) (k : Fin 3), (romAddress x k).toNat = 8 * x.toNat + k.val := by decide +revert
  exact hor ir k

theorem romRead_out_of_range (r : Rom) {op : Byte} (k : Fin 3) (h : 16 ≤ op.toNat) :
    romRead r (romAddress op k) = 0#16 := by
  have := romAddress_toNat op k
  simp only [romRead]
  rw [if_neg (by omega)]

theorem romWrite_wf {r : Rom} (h : Rom.wf r = true) (a : RomAddr) (cw : ControlWord) :
    Rom.wf (romWrite r a cw) = true := by
  unfold romWrite
  split
  · exact Cells.write_wf cw h (Nat.zero_le _) ‹_›
  · exact h

theorem romRead_romWrite_same {r : Rom} (h : Rom.wf r = true) {a : RomAddr} (cw : ControlWord) (ha : a.toNat < 128) :
    romRead (romWrite r a cw) a = cw := by
  simp only [romRead, romWrite, ha, if_true]
  exact Cells.read_write_same _ _ h

theorem romRead_romWrite_other (r : Rom) {a x : RomAddr} (cw : ControlWord) (hx : x ≠ a) :
    romRead (romWrite r a cw) x = romRead r x := by
  simp only [romRead, romWrite]
  split <;> try rfl
  split <;> try rfl
  exact Cells.read_write_other cw fun h => hx (BitVec.eq_of_toNat_eq h)

end Sys2Proof.Machine
end

