-- ==== Sys2Proof/Laws/Signals.lean ====
section
/-! SUPPORT. The laws of signal sets: asserting and dropping a signal, counting sources, a set is determined by its
signals, and the control-word encoder read bit by bit (30_encoding.md R82, R83). -/

namespace Sys2Proof

/-- Two sets with the same signals are equal. -/
theorem SignalSet.ext_get {o p : SignalSet} (h : ∀ g, o.get g = p.get g) : o = p := by
  rcases o with ⟨⟩
  rcases p with ⟨⟩
  have h0 := h .pcOut
  have h1 := h .ramOut
  have h2 := h .irOut
  have h3 := h .aOut
  have h4 := h .bOut
  have h5 := h .aluOut
  have h6 := h .marIn
  have h7 := h .ramIn
  have h8 := h .irIn
  have h9 := h .aIn
  have h10 := h .bIn
  have h11 := h .pcInc
  have h12 := h .aluSub
  have h13 := h .flagsIn
  have h14 := h .halt
  simp only [SignalSet.get] at *
  subst_vars
  rfl

theorem SignalSet.get_assert (o : SignalSet) (g x : Signal) : (o.assert g).get x = (decide (x = g) || o.get x) := by
  cases g <;> cases x <;> rfl

theorem SignalSet.get_drop (o : SignalSet) (g x : Signal) : (o.drop g).get x = (decide (x ≠ g) && o.get x) := by
  cases g <;> cases x <;> rfl

/-- Dropping an asserted signal and asserting it again changes nothing. -/
theorem SignalSet.assert_drop {o : SignalSet} {g : Signal} (h : o.get g = true) : (o.drop g).assert g = o :=
  SignalSet.ext_get fun x => by
    rw [get_assert, get_drop]
    by_cases hx : x = g
    · simp [hx, h]
    · simp [hx]

theorem SignalSet.drop_assert {o : SignalSet} {g : Signal} (h : o.get g = false) : (o.assert g).drop g = o :=
  SignalSet.ext_get fun x => by
    rw [get_drop, get_assert]
    by_cases hx : x = g
    · simp [hx, h]
    · simp [hx]

/-- The number of sources as a sum over the six. -/
theorem SignalSet.sourceCount_eq (o : SignalSet) :
    o.sourceCount =
      o.pcOut.toNat + o.ramOut.toNat + o.irOut.toNat + o.aOut.toNat + o.bOut.toNat + o.aluOut.toNat := by
  rcases o with ⟨a, b, c, d, e, f⟩
  cases a <;> cases b <;> cases c <;> cases d <;> cases e <;> cases f <;> rfl

@[simp] theorem decodeSignals_get (sb : SigBit) (cw : ControlWord) (g : Signal) :
    (decodeSignals sb cw).get g = cw.getLsbD (sb.pos g).val := by
  cases g <;> rfl

/-- The zero word asserts nothing under any SIGBIT (30_encoding.md R87). -/
@[simp] theorem decodeSignals_zero (sb : SigBit) : decodeSignals sb 0#16 = {} :=
  SignalSet.ext_get fun g => by
    rw [decodeSignals_get]
    cases g <;> simp [SignalSet.get]

theorem Signal.mem_all (g : Signal) : g ∈ Signal.all := by
  cases g <;> decide

/-- An injective SIGBIT gives different signals different bits. -/
theorem SigBit.pos_injective {sb : SigBit} (h : sb.wf = true) {g x : Signal} (e : sb.pos g = sb.pos x) : g = x := by
  have hn : (Signal.all.map sb.pos).Nodup := by simpa [SigBit.wf] using h
  exact List.inj_on_of_nodup_map hn (Signal.mem_all g) (Signal.mem_all x) e

/-- The one-hot word of bit `q` has bit `p` exactly when `q = p`. -/
theorem oneHot_bit : ∀ q p : Fin 16, (1#16 <<< q.val).getLsbD p.val = decide (q = p) := by decide

/-- One bit of the encoder's fold: it is set exactly when some asserted signal of the list has it. -/
theorem encode_bit (sb : SigBit) (o : SignalSet) (p : Fin 16) (l : List Signal) :
    (l.foldr (fun s w => if o.get s then (1#16 <<< (sb.pos s).val) ||| w else w) 0#16).getLsbD p.val =
      l.any fun g => o.get g && decide (sb.pos g = p) := by
  induction l with
  | nil => simp
  | cons g rest ih =>
    rw [List.foldr_cons, List.any_cons, ← ih]
    by_cases hg : o.get g = true
    · rw [if_pos hg, BitVec.getLsbD_or, oneHot_bit, hg, Bool.true_and]
    · simp [hg]

/-- The encoded word has the bit of a signal exactly when the set asserts it. -/
theorem encodeSignals_bit {sb : SigBit} (h : sb.wf = true) (o : SignalSet) (g : Signal) :
    (encodeSignals sb o).getLsbD (sb.pos g).val = o.get g := by
  rw [encodeSignals, encode_bit, Bool.eq_iff_iff]
  simp only [List.any_eq_true, Bool.and_eq_true, decide_eq_true_eq]
  constructor
  · rintro ⟨x, -, hx, e⟩
    rwa [← SigBit.pos_injective h e]
  · exact fun hg => ⟨g, Signal.mem_all g, hg, rfl⟩

/-- Decode of encode is the set, for an injective SIGBIT. -/
theorem decode_encode_signals {sb : SigBit} (h : sb.wf = true) (o : SignalSet) :
    decodeSignals sb (encodeSignals sb o) = o :=
  SignalSet.ext_get fun g => by rw [decodeSignals_get, encodeSignals_bit h]

end Sys2Proof
end

