-- ==== Sys2Proof/Laws/State.lean ====
section
/-! SUPPORT. One lemma per field per update of the state, each true by unfolding the update once, so that no later proof
unfolds a record update. -/

namespace Sys2Proof.Machine

/-! ### countCycle -/

@[simp] theorem countCycle_a (s : State) : (countCycle s).a = s.a := rfl
@[simp] theorem countCycle_b (s : State) : (countCycle s).b = s.b := rfl
@[simp] theorem countCycle_pc (s : State) : (countCycle s).pc = s.pc := rfl
@[simp] theorem countCycle_mar (s : State) : (countCycle s).mar = s.mar := rfl
@[simp] theorem countCycle_ir (s : State) : (countCycle s).ir = s.ir := rfl
@[simp] theorem countCycle_flagC (s : State) : (countCycle s).flagC = s.flagC := rfl
@[simp] theorem countCycle_flagZ (s : State) : (countCycle s).flagZ = s.flagZ := rfl
@[simp] theorem countCycle_bus (s : State) : (countCycle s).bus = s.bus := rfl
@[simp] theorem countCycle_ram (s : State) : (countCycle s).ram = s.ram := rfl
@[simp] theorem countCycle_phase (s : State) : (countCycle s).phase = s.phase := rfl
@[simp] theorem countCycle_cycles (s : State) : (countCycle s).cycles = s.cycles + 1 := rfl
@[simp] theorem countCycle_instructions (s : State) : (countCycle s).instructions = s.instructions := rfl
@[simp] theorem countCycle_rom (s : State) : (countCycle s).rom = s.rom := rfl
@[simp] theorem countCycle_cfg (s : State) : (countCycle s).cfg = s.cfg := rfl
@[simp] theorem countCycle_clock (s : State) : (countCycle s).clock = s.clock := rfl
@[simp] theorem countCycle_grain (s : State) : (countCycle s).grain = s.grain := rfl
@[simp] theorem countCycle_freeCount (s : State) : (countCycle s).freeCount = s.freeCount := rfl

/-! ### doFetch0 -/

@[simp] theorem doFetch0_a (s : State) : (doFetch0 s).a = s.a := rfl
@[simp] theorem doFetch0_b (s : State) : (doFetch0 s).b = s.b := rfl
@[simp] theorem doFetch0_pc (s : State) : (doFetch0 s).pc = s.pc := rfl
@[simp] theorem doFetch0_mar (s : State) : (doFetch0 s).mar = lowNibble (zext8 s.pc) := rfl
@[simp] theorem doFetch0_ir (s : State) : (doFetch0 s).ir = s.ir := rfl
@[simp] theorem doFetch0_flagC (s : State) : (doFetch0 s).flagC = s.flagC := rfl
@[simp] theorem doFetch0_flagZ (s : State) : (doFetch0 s).flagZ = s.flagZ := rfl
@[simp] theorem doFetch0_bus (s : State) : (doFetch0 s).bus = zext8 s.pc := rfl
@[simp] theorem doFetch0_ram (s : State) : (doFetch0 s).ram = s.ram := rfl
@[simp] theorem doFetch0_phase (s : State) : (doFetch0 s).phase = .fetch1 := rfl
@[simp] theorem doFetch0_cycles (s : State) : (doFetch0 s).cycles = s.cycles := rfl
@[simp] theorem doFetch0_instructions (s : State) : (doFetch0 s).instructions = s.instructions := rfl
@[simp] theorem doFetch0_rom (s : State) : (doFetch0 s).rom = s.rom := rfl
@[simp] theorem doFetch0_cfg (s : State) : (doFetch0 s).cfg = s.cfg := rfl
@[simp] theorem doFetch0_clock (s : State) : (doFetch0 s).clock = s.clock := rfl
@[simp] theorem doFetch0_grain (s : State) : (doFetch0 s).grain = s.grain := rfl
@[simp] theorem doFetch0_freeCount (s : State) : (doFetch0 s).freeCount = s.freeCount := rfl

/-! ### doFetch1 -/

@[simp] theorem doFetch1_a (op : Byte) (s : State) : (doFetch1 op s).a = s.a := rfl
@[simp] theorem doFetch1_b (op : Byte) (s : State) : (doFetch1 op s).b = s.b := rfl
@[simp] theorem doFetch1_pc (op : Byte) (s : State) : (doFetch1 op s).pc = s.pc + 1 := rfl
@[simp] theorem doFetch1_mar (op : Byte) (s : State) : (doFetch1 op s).mar = s.mar := rfl
@[simp] theorem doFetch1_ir (op : Byte) (s : State) : (doFetch1 op s).ir = op := rfl
@[simp] theorem doFetch1_flagC (op : Byte) (s : State) : (doFetch1 op s).flagC = s.flagC := rfl
@[simp] theorem doFetch1_flagZ (op : Byte) (s : State) : (doFetch1 op s).flagZ = s.flagZ := rfl
@[simp] theorem doFetch1_bus (op : Byte) (s : State) : (doFetch1 op s).bus = op := rfl
@[simp] theorem doFetch1_ram (op : Byte) (s : State) : (doFetch1 op s).ram = s.ram := rfl
@[simp] theorem doFetch1_phase (op : Byte) (s : State) : (doFetch1 op s).phase = .execute 0 := rfl
@[simp] theorem doFetch1_cycles (op : Byte) (s : State) : (doFetch1 op s).cycles = s.cycles := rfl
@[simp] theorem doFetch1_instructions (op : Byte) (s : State) : (doFetch1 op s).instructions = s.instructions := rfl
@[simp] theorem doFetch1_rom (op : Byte) (s : State) : (doFetch1 op s).rom = s.rom := rfl
@[simp] theorem doFetch1_cfg (op : Byte) (s : State) : (doFetch1 op s).cfg = s.cfg := rfl
@[simp] theorem doFetch1_clock (op : Byte) (s : State) : (doFetch1 op s).clock = s.clock := rfl
@[simp] theorem doFetch1_grain (op : Byte) (s : State) : (doFetch1 op s).grain = s.grain := rfl
@[simp] theorem doFetch1_freeCount (op : Byte) (s : State) : (doFetch1 op s).freeCount = s.freeCount := rfl

/-! ### enterHalted -/

@[simp] theorem enterHalted_a (s : State) : (enterHalted s).a = s.a := rfl
@[simp] theorem enterHalted_b (s : State) : (enterHalted s).b = s.b := rfl
@[simp] theorem enterHalted_pc (s : State) : (enterHalted s).pc = s.pc := rfl
@[simp] theorem enterHalted_mar (s : State) : (enterHalted s).mar = s.mar := rfl
@[simp] theorem enterHalted_ir (s : State) : (enterHalted s).ir = s.ir := rfl
@[simp] theorem enterHalted_flagC (s : State) : (enterHalted s).flagC = s.flagC := rfl
@[simp] theorem enterHalted_flagZ (s : State) : (enterHalted s).flagZ = s.flagZ := rfl
@[simp] theorem enterHalted_bus (s : State) : (enterHalted s).bus = s.bus := rfl
@[simp] theorem enterHalted_ram (s : State) : (enterHalted s).ram = s.ram := rfl
@[simp] theorem enterHalted_phase (s : State) : (enterHalted s).phase = .halted := rfl
@[simp] theorem enterHalted_cycles (s : State) : (enterHalted s).cycles = s.cycles := rfl
@[simp] theorem enterHalted_instructions (s : State) : (enterHalted s).instructions = s.instructions := rfl
@[simp] theorem enterHalted_rom (s : State) : (enterHalted s).rom = s.rom := rfl
@[simp] theorem enterHalted_cfg (s : State) : (enterHalted s).cfg = s.cfg := rfl
@[simp] theorem enterHalted_clock (s : State) : (enterHalted s).clock = s.clock := rfl
@[simp] theorem enterHalted_grain (s : State) : (enterHalted s).grain = s.grain := rfl
@[simp] theorem enterHalted_freeCount (s : State) : (enterHalted s).freeCount = s.freeCount := rfl

/-! ### latch -/

@[simp] theorem latch_a (o : SignalSet) (v : Byte) (s : State) : (latch o v s).a = if o.aIn then v else s.a := rfl
@[simp] theorem latch_b (o : SignalSet) (v : Byte) (s : State) : (latch o v s).b = if o.bIn then v else s.b := rfl
@[simp] theorem latch_pc (o : SignalSet) (v : Byte) (s : State) : (latch o v s).pc = if o.pcInc then s.pc + 1 else s.pc := rfl
@[simp] theorem latch_mar (o : SignalSet) (v : Byte) (s : State) : (latch o v s).mar = if o.marIn then lowNibble v else s.mar := rfl
@[simp] theorem latch_ir (o : SignalSet) (v : Byte) (s : State) : (latch o v s).ir = if o.irIn then v else s.ir := rfl
@[simp] theorem latch_flagC (o : SignalSet) (v : Byte) (s : State) : (latch o v s).flagC = nextFlagC o s := rfl
@[simp] theorem latch_flagZ (o : SignalSet) (v : Byte) (s : State) : (latch o v s).flagZ = nextFlagZ o s := rfl
@[simp] theorem latch_bus (o : SignalSet) (v : Byte) (s : State) : (latch o v s).bus = v := rfl
@[simp] theorem latch_ram (o : SignalSet) (v : Byte) (s : State) : (latch o v s).ram = if o.ramIn then writeByte s.ram s.mar v else s.ram := rfl
@[simp] theorem latch_phase (o : SignalSet) (v : Byte) (s : State) : (latch o v s).phase = s.phase := rfl
@[simp] theorem latch_cycles (o : SignalSet) (v : Byte) (s : State) : (latch o v s).cycles = s.cycles := rfl
@[simp] theorem latch_instructions (o : SignalSet) (v : Byte) (s : State) : (latch o v s).instructions = s.instructions := rfl
@[simp] theorem latch_rom (o : SignalSet) (v : Byte) (s : State) : (latch o v s).rom = s.rom := rfl
@[simp] theorem latch_cfg (o : SignalSet) (v : Byte) (s : State) : (latch o v s).cfg = s.cfg := rfl
@[simp] theorem latch_clock (o : SignalSet) (v : Byte) (s : State) : (latch o v s).clock = s.clock := rfl
@[simp] theorem latch_grain (o : SignalSet) (v : Byte) (s : State) : (latch o v s).grain = s.grain := rfl
@[simp] theorem latch_freeCount (o : SignalSet) (v : Byte) (s : State) : (latch o v s).freeCount = if contends o then s.freeCount + 1 else s.freeCount := rfl

/-! ### advance -/

@[simp] theorem advance_a (k : Fin 3) (s : State) : (advance k s).a = s.a := by
  unfold advance; split <;> rfl
@[simp] theorem advance_b (k : Fin 3) (s : State) : (advance k s).b = s.b := by
  unfold advance; split <;> rfl
@[simp] theorem advance_pc (k : Fin 3) (s : State) : (advance k s).pc = s.pc := by
  unfold advance; split <;> rfl
@[simp] theorem advance_mar (k : Fin 3) (s : State) : (advance k s).mar = s.mar := by
  unfold advance; split <;> rfl
@[simp] theorem advance_ir (k : Fin 3) (s : State) : (advance k s).ir = s.ir := by
  unfold advance; split <;> rfl
@[simp] theorem advance_flagC (k : Fin 3) (s : State) : (advance k s).flagC = s.flagC := by
  unfold advance; split <;> rfl
@[simp] theorem advance_flagZ (k : Fin 3) (s : State) : (advance k s).flagZ = s.flagZ := by
  unfold advance; split <;> rfl
@[simp] theorem advance_bus (k : Fin 3) (s : State) : (advance k s).bus = s.bus := by
  unfold advance; split <;> rfl
@[simp] theorem advance_ram (k : Fin 3) (s : State) : (advance k s).ram = s.ram := by
  unfold advance; split <;> rfl
@[simp] theorem advance_phase (k : Fin 3) (s : State) : (advance k s).phase = if k = 2 then .fetch0 else .execute (k + 1) := by
  unfold advance; split <;> rfl
@[simp] theorem advance_cycles (k : Fin 3) (s : State) : (advance k s).cycles = s.cycles := by
  unfold advance; split <;> rfl
@[simp] theorem advance_instructions (k : Fin 3) (s : State) : (advance k s).instructions = if k = 2 then s.instructions + 1 else s.instructions := by
  unfold advance; split <;> rfl
@[simp] theorem advance_rom (k : Fin 3) (s : State) : (advance k s).rom = s.rom := by
  unfold advance; split <;> rfl
@[simp] theorem advance_cfg (k : Fin 3) (s : State) : (advance k s).cfg = s.cfg := by
  unfold advance; split <;> rfl
@[simp] theorem advance_clock (k : Fin 3) (s : State) : (advance k s).clock = s.clock := by
  unfold advance; split <;> rfl
@[simp] theorem advance_grain (k : Fin 3) (s : State) : (advance k s).grain = s.grain := by
  unfold advance; split <;> rfl
@[simp] theorem advance_freeCount (k : Fin 3) (s : State) : (advance k s).freeCount = s.freeCount := by
  unfold advance; split <;> rfl

/-! ### eraseFlags -/

@[simp] theorem eraseFlags_a (s : State) : (State.eraseFlags s).a = s.a := rfl
@[simp] theorem eraseFlags_b (s : State) : (State.eraseFlags s).b = s.b := rfl
@[simp] theorem eraseFlags_pc (s : State) : (State.eraseFlags s).pc = s.pc := rfl
@[simp] theorem eraseFlags_mar (s : State) : (State.eraseFlags s).mar = s.mar := rfl
@[simp] theorem eraseFlags_ir (s : State) : (State.eraseFlags s).ir = s.ir := rfl
@[simp] theorem eraseFlags_flagC (s : State) : (State.eraseFlags s).flagC = false := rfl
@[simp] theorem eraseFlags_flagZ (s : State) : (State.eraseFlags s).flagZ = false := rfl
@[simp] theorem eraseFlags_bus (s : State) : (State.eraseFlags s).bus = s.bus := rfl
@[simp] theorem eraseFlags_ram (s : State) : (State.eraseFlags s).ram = s.ram := rfl
@[simp] theorem eraseFlags_phase (s : State) : (State.eraseFlags s).phase = s.phase := rfl
@[simp] theorem eraseFlags_cycles (s : State) : (State.eraseFlags s).cycles = s.cycles := rfl
@[simp] theorem eraseFlags_instructions (s : State) : (State.eraseFlags s).instructions = s.instructions := rfl
@[simp] theorem eraseFlags_rom (s : State) : (State.eraseFlags s).rom = s.rom := rfl
@[simp] theorem eraseFlags_cfg (s : State) : (State.eraseFlags s).cfg = s.cfg := rfl
@[simp] theorem eraseFlags_clock (s : State) : (State.eraseFlags s).clock = s.clock := rfl
@[simp] theorem eraseFlags_grain (s : State) : (State.eraseFlags s).grain = s.grain := rfl
@[simp] theorem eraseFlags_freeCount (s : State) : (State.eraseFlags s).freeCount = s.freeCount := rfl

/-! ### andThen -/

@[simp] theorem andThen_next (s : State) (f : State → Result) : andThen (.next s) f = f s := rfl

@[simp] theorem andThen_fault (e : Fault) (f : State → Result) : andThen (.fault e) f = .fault e := rfl

@[simp] theorem andThen_refused (e : Refusal) (f : State → Result) : andThen (.refused e) f = .refused e := rfl

/-- A sequence answers a next state only through a next state of its first part. -/
theorem andThen_eq_next {r : Result} {f : State → Result} {t : State} (h : andThen r f = .next t) :
    ∃ u, r = .next u ∧ f u = .next t := by
  cases r with
  | next u => exact ⟨u, rfl, h⟩
  | fault e => cases h
  | refused e => cases h

end Sys2Proof.Machine
end

