-- ==== Sys2Proof/Laws/Datapath.lean ====
section
/-! SUPPORT. What the bus arbiter, the latches and an Execute micro-step can do, each said once; later proofs cite these
and do not unfold the operations. -/

namespace Sys2Proof.Machine

/-- The set of a word's sources has as many elements as the word has sources. -/
theorem contends_iff (o : SignalSet) : contends o = decide (2 ≤ o.sourceCount) := rfl

/-- With at most one source the bus carries the driven value (42_signal_execution.md R141, R142). -/
theorem busValue_eq_drivenValue {o : SignalSet} (s : State) (h : o.sourceCount ≤ 1) :
    busValue o s = drivenValue o s := by
  rw [SignalSet.sourceCount_eq] at h
  rcases o with ⟨p, r, i, a, b, l⟩
  cases p <;> cases r <;> cases i <;> cases a <;> cases b <;> cases l <;>
    first
    | (simp [Bool.toNat] at h; done)
    | simp [busValue, assertedSources, Signal.sources, List.filter_cons, SignalSet.get, drivenValue, sourceValue,
        zext8, aluResult_eq]

/-- A free choice is one of the asserted sources (R143). -/
theorem freeChoice_mem (x : Signal) (xs : List Signal) (n : Nat) : freeChoice x xs n ∈ x :: xs := by
  have hlt : Config.freeSource n % (xs.length + 1) < (x :: xs).length := by
    simpa using Nat.mod_lt (Config.freeSource n) (Nat.succ_pos xs.length)
  rw [freeChoice, List.getD_eq_getElem _ _ hlt]
  exact List.getElem_mem hlt

/-- With two or more sources the bus carries the value of one of them (R143). -/
theorem busValue_of_contention {o : SignalSet} (s : State) (h : 2 ≤ o.sourceCount) :
    ∃ x, x ∈ assertedSources o ∧ busValue o s = sourceValue o s x := by
  have hlen : 2 ≤ (assertedSources o).length := h
  unfold busValue
  match hl : assertedSources o, hlen with
  | x :: y :: rest, _ => exact ⟨_, freeChoice_mem x (y :: rest) _, rfl⟩

theorem nextFlagC_eq (o : SignalSet) (s : State) :
    nextFlagC o s = if o.flagsIn then carryOf o s else s.flagC := by
  unfold nextFlagC carryOf
  cases o.aluSub <;> simp [aluCarry_add, aluCarry_sub]

theorem nextFlagZ_eq (o : SignalSet) (s : State) :
    nextFlagZ o s = if o.flagsIn then zeroOf o s else s.flagZ := by
  simp only [nextFlagZ, zeroOf, aluZero_eq]

theorem flagsRefused_iff (o : SignalSet) (s : State) : flagsRefused o s.cfg = true ↔ ¬ FlagsAllowed o s := by
  unfold flagsRefused FlagsAllowed
  cases o.flagsIn <;> cases o.aluOut <;> cases s.cfg.flagsWithoutAluOut <;> simp

/-- The latches and the advance have the effect the rules give, field by field. -/
theorem latch_effect (o : SignalSet) (k : Fin 3) (v : Byte) {s : State} (h : Memory.wf s.ram = true) :
    MicroStepEffect o k v s (advance k (latch o v (countCycle s))) where
  bus := by simp
  a := by simp
  b := by simp
  ir := by simp
  mar := by simp [lowNibble]
  pc := by simp
  flagC := (advance_flagC k _).trans (nextFlagC_eq o (countCycle s))
  flagZ := (advance_flagZ k _).trans (nextFlagZ_eq o (countCycle s))
  ram := by
    intro x
    by_cases hr : o.ramIn = true
    · simp [hr, readByte_writeByte h]
    · simp [hr]
  phase := by simp
  cycles := by simp
  instructions := by simp
  rom := by simp
  cfg := by simp
  clock := by simp
  grain := by simp

/-- Everything a micro-step of a control word can answer (R140, R143, R177; 41_sequencer.md R125, R127, R128). -/
theorem microStep_cases (o : SignalSet) (s : State) :
    (s.phase = .halted ∧ microStep o s = .next s) ∨
    ((s.phase = .fetch0 ∨ s.phase = .fetch1) ∧ microStep o s = .refused .wrongPhase) ∨
    ∃ k, s.phase = .execute k ∧
      ((o.halt = true ∧ microStep o s = .next (enterHalted (countCycle s))) ∨
       (o.halt = false ∧ ¬ FlagsAllowed o s ∧ microStep o s = .refused .flagsInWithoutAluOut) ∨
       (o.halt = false ∧ FlagsAllowed o s ∧ 2 ≤ o.sourceCount ∧ s.cfg.contention = .fault ∧
         microStep o s = .fault (.busContention s.ir k (assertedSources o))) ∨
       (o.halt = false ∧ FlagsAllowed o s ∧ (o.sourceCount ≤ 1 ∨ s.cfg.contention = .anyAssertedSource) ∧
         microStep o s = .next (advance k (latch o (busValue o (countCycle s)) (countCycle s))))) := by
  unfold microStep
  match hp : s.phase with
  | .halted => exact .inl ⟨rfl, rfl⟩
  | .fetch0 => exact .inr (.inl ⟨.inl rfl, rfl⟩)
  | .fetch1 => exact .inr (.inl ⟨.inr rfl, rfl⟩)
  | .execute k =>
    refine .inr (.inr ⟨k, rfl, ?_⟩)
    dsimp only
    unfold executeSet
    by_cases hh : o.halt = true
    · exact .inl ⟨hh, by simp [hh]⟩
    · have hh' : o.halt = false := by simpa using hh
      refine .inr ?_
      simp only [hh', Bool.false_eq_true, if_false, applySignals]
      by_cases hf : flagsRefused o s.cfg = true
      · exact .inl ⟨trivial, (flagsRefused_iff o s).1 hf, by simp [hf]⟩
      · have hfa : FlagsAllowed o s := by
          by_contra hn
          exact hf ((flagsRefused_iff o s).2 hn)
        have hff : flagsRefused o s.cfg = false := by simpa using hf
        refine .inr ?_
        by_cases hc : 2 ≤ o.sourceCount
        · cases hcfg : s.cfg.contention with
          | fault => exact .inl ⟨trivial, hfa, hc, rfl, by simp [hff, contends_iff, hc, hcfg]⟩
          | anyAssertedSource =>
            exact .inr ⟨trivial, hfa, .inr rfl, by simp [hff, contends_iff, hc, hcfg]⟩
        · exact .inr ⟨trivial, hfa, .inl (by omega), by simp [hff, contends_iff, hc]⟩

/-- A word with at most one source completes, with the effect the rules give. -/
theorem microStep_completes {o : SignalSet} {s : State} {k : Fin 3} (h : Ready o k s) (hc : o.sourceCount ≤ 1) :
    ∃ t, microStep o s = .next t ∧ t.freeCount = s.freeCount ∧ MicroStepEffect o k (drivenValue o s) s t := by
  obtain ⟨hp, hh, hf, hr⟩ := h
  rcases microStep_cases o s with ⟨h1, -⟩ | ⟨h1, -⟩ | ⟨j, hj, h1 | h1 | h1 | h1⟩
  · simp [hp] at h1
  · simp [hp] at h1
  · simp [hh] at h1
  · exact absurd hf h1.2.1
  · omega
  · obtain rfl : k = j := by simpa [hp] using hj
    refine ⟨_, h1.2.2.2, ?_, ?_⟩
    · have : ¬ 2 ≤ o.sourceCount := by omega
      simp [contends_iff, this]
    · rw [busValue_eq_drivenValue _ hc]
      exact latch_effect o k _ hr

/-- Under CONTENTION = any-asserted-source a word with several sources completes with the value of one of them. -/
theorem microStep_contends {o : SignalSet} {s : State} {k : Fin 3} (h : Ready o k s)
    (hcfg : s.cfg.contention = .anyAssertedSource) (hc : 2 ≤ o.sourceCount) :
    ∃ t x, microStep o s = .next t ∧ x ∈ assertedSources o ∧
      MicroStepEffect o k (sourceValue o (countCycle s) x) s t := by
  obtain ⟨hp, hh, hf, hr⟩ := h
  obtain ⟨x, hx, hv⟩ := busValue_of_contention (countCycle s) hc
  rcases microStep_cases o s with ⟨h1, -⟩ | ⟨h1, -⟩ | ⟨j, hj, h1 | h1 | h1 | h1⟩
  · simp [hp] at h1
  · simp [hp] at h1
  · simp [hh] at h1
  · exact absurd hf h1.2.1
  · simp [hcfg] at h1
  · obtain rfl : k = j := by simpa [hp] using hj
    refine ⟨_, x, h1.2.2.2, hx, ?_⟩
    rw [hv]
    exact latch_effect o k _ hr

end Sys2Proof.Machine
end

