-- ==== Sys2Proof/Laws/Step.lean ====
section
/-! SUPPORT. The instruction named by a signal set runs the micro-step of that set; `edge` is a step of one micro-cycle;
a step as the instruction its phase selects. -/

namespace Sys2Proof.Machine

/-- Whatever signal names it, a control word runs as the micro-step of its whole set (42_signal_execution.md R140). -/
theorem exec_ofSignals (o : SignalSet) (s : State) : exec (Instr.ofSignals o) s = microStep o s := by
  have key : ∀ {g : Signal}, o.get g = true → microStep ((o.drop g).assert g) s = microStep o s := fun h => by
    rw [SignalSet.assert_drop h]
  unfold Instr.ofSignals
  by_cases h0 : o.halt = true
  · rw [if_pos h0]
    exact key (g := .halt) h0
  rw [if_neg h0]
  by_cases h1 : o.pcOut = true
  · rw [if_pos h1]
    exact key (g := .pcOut) h1
  rw [if_neg h1]
  by_cases h2 : o.ramOut = true
  · rw [if_pos h2]
    exact key (g := .ramOut) h2
  rw [if_neg h2]
  by_cases h3 : o.irOut = true
  · rw [if_pos h3]
    exact key (g := .irOut) h3
  rw [if_neg h3]
  by_cases h4 : o.aOut = true
  · rw [if_pos h4]
    exact key (g := .aOut) h4
  rw [if_neg h4]
  by_cases h5 : o.bOut = true
  · rw [if_pos h5]
    exact key (g := .bOut) h5
  rw [if_neg h5]
  by_cases h6 : o.aluOut = true
  · rw [if_pos h6]
    exact key (g := .aluOut) h6
  rw [if_neg h6]
  by_cases h7 : o.marIn = true
  · rw [if_pos h7]
    exact key (g := .marIn) h7
  rw [if_neg h7]
  by_cases h8 : o.ramIn = true
  · rw [if_pos h8]
    exact key (g := .ramIn) h8
  rw [if_neg h8]
  by_cases h9 : o.irIn = true
  · rw [if_pos h9]
    exact key (g := .irIn) h9
  rw [if_neg h9]
  by_cases h10 : o.aIn = true
  · rw [if_pos h10]
    exact key (g := .aIn) h10
  rw [if_neg h10]
  by_cases h11 : o.bIn = true
  · rw [if_pos h11]
    exact key (g := .bIn) h11
  rw [if_neg h11]
  by_cases h12 : o.pcInc = true
  · rw [if_pos h12]
    exact key (g := .pcInc) h12
  rw [if_neg h12]
  by_cases h13 : o.aluSub = true
  · rw [if_pos h13]
    exact key (g := .aluSub) h13
  rw [if_neg h13]
  by_cases h14 : o.flagsIn = true
  · rw [if_pos h14]
    exact key (g := .flagsIn) h14
  rw [if_neg h14]
  have he : o = {} := SignalSet.ext_get fun g => by cases g <;> simp_all [SignalSet.get]
  subst he
  rfl

theorem exec_decodeControlWord (sb : SigBit) (cw : ControlWord) (s : State) :
    exec (decodeControlWord sb cw) s = microStep (decodeSignals sb cw) s := exec_ofSignals _ s

/-- A macro-instruction runs as its opcode byte. -/
theorem exec_decodeOpcode (op : Byte) (s : State) : exec (decodeOpcode op) s = macroInstruction op s := by
  have h : ∀ op : Byte, (decodeOpcode op).opcode = some op := by decide
  have hm : ∀ (i : Instr), i.opcode = some op → exec i s = macroInstruction op s := by
    intro i hi
    cases i <;> simp only [Instr.opcode, Option.some.injEq, reduceCtorEq] at hi <;> subst hi <;> rfl
  exact hm _ (h op)

/-- The instruction with an opcode byte runs as that byte. -/
theorem exec_of_opcode {i : Instr} {op : Byte} (h : i.opcode = some op) (s : State) :
    exec i s = macroInstruction op s := by
  cases i <;> simp only [Instr.opcode, Option.some.injEq, reduceCtorEq] at h <;> subst h <;> rfl

/-- A step of one micro-cycle is `edge`, the spec's `Step(ROM)`; so is a step that begins inside an instruction. -/
theorem step_eq_edge {s : State} (h : s.phase = .fetch0 → s.grain = .microCycle) : step s = edge s := by
  unfold step fetchInstr edge
  match hp : s.phase with
  | .halted => rfl
  | .fetch0 => simp only [h hp]; rfl
  | .fetch1 => rfl
  | .execute k => exact exec_decodeControlWord _ _ s

/-- A step at an instruction boundary under the macro-instruction grain. -/
theorem step_eq_macroInstruction {s : State} (h : s.phase = .fetch0) (hg : s.grain = .macroInstruction) :
    step s = macroInstruction (readByte s.ram s.pc) s := by
  have : step s = exec (decodeOpcode (readByte s.ram s.pc)) s := by
    unfold step fetchInstr
    simp only [h, hg]
  rw [this, exec_decodeOpcode]

/-- `edge` phase by phase. -/
theorem edge_halted {s : State} (h : s.phase = .halted) : edge s = .next s := by
  simp [edge, h]

theorem edge_fetch0 {s : State} (h : s.phase = .fetch0) : edge s = .next (doFetch0 (countCycle s)) := by
  simp [edge, execFetch0, h]

theorem edge_fetch1 {s : State} (h : s.phase = .fetch1) :
    edge s = .next (doFetch1 (readByte s.ram s.mar) (countCycle s)) := by
  simp [edge, execFetch1, h]

theorem edge_execute {s : State} {k : Fin 3} (h : s.phase = .execute k) :
    edge s = microStep (currentSignals s k) s := by
  simp [edge, h]

/-- A macro-instruction from Fetch0: the two fetch micro-operations, then three edges. -/
theorem macroInstruction_fetch0 {s : State} (op : Byte) (h : s.phase = .fetch0) :
    macroInstruction op s =
      andThen (andThen (edge (doFetch1 op (countCycle (doFetch0 (countCycle s))))) edge) edge := by
  simp [macroInstruction, h]

@[simp] theorem lowNibble_zext8 (n : Nibble) : lowNibble (zext8 n) = n := by
  simp [lowNibble, zext8]

end Sys2Proof.Machine
end

