-- ==== Sys2Proof/Laws/Macro.lean ====
section
/-! SUPPORT. One edge of a word with at most one source as an explicit next state, and a macro-instruction as three of them
after the fetch: what the provers of the macro-instructions' effects cite. -/

namespace Sys2Proof.Machine

/-- An Execute edge of a word without HALT and with at most one source. -/
theorem edge_of_signals {u : State} {k : Fin 3} {o : SignalSet} (hp : u.phase = .execute k)
    (ho : currentSignals u k = o) (hh : o.halt = false) (hf : FlagsAllowed o u) (hc : o.sourceCount ≤ 1) :
    edge u = .next (advance k (latch o (drivenValue o u) (countCycle u))) := by
  rw [edge_execute hp, ho]
  rcases microStep_cases o u with ⟨h1, -⟩ | ⟨h1, -⟩ | ⟨j, hj, h1 | h1 | h1 | h1⟩
  · simp [hp] at h1
  · simp [hp] at h1
  · simp [hh] at h1
  · exact absurd hf h1.2.1
  · omega
  · obtain rfl : k = j := by simpa [hp] using hj
    rw [h1.2.2.2, busValue_eq_drivenValue _ hc]
    rfl

/-- An Execute edge of a word with HALT. -/
theorem edge_of_halt {u : State} {k : Fin 3} (hp : u.phase = .execute k) (hh : (currentSignals u k).halt = true) :
    edge u = .next (enterHalted (countCycle u)) := by
  rw [edge_execute hp]
  simp [microStep, hp, executeSet, hh]

/-- The state in which Execute(0) of the opcode `op` begins. -/
def fetched (op : Byte) (s : State) : State := doFetch1 op (countCycle (doFetch0 (countCycle s)))

theorem macroInstruction_fetched {s : State} (op : Byte) (h : s.phase = .fetch0) :
    macroInstruction op s = andThen (andThen (edge (fetched op s)) edge) edge := macroInstruction_fetch0 op h

/-- The microcode an opcode's row gives is what its three edges decode, as long as IR, the ROM and SIGBIT stay. -/
theorem currentSignals_of_microcode {op : Byte} {s u : State} (h : HoldsMicrocode op s) (hi : u.ir = op)
    (hr : u.rom = s.rom) (hc : u.cfg = s.cfg) (k : Fin 3) : currentSignals u k = microcode op k := by
  rw [currentSignals, hi, hr, hc]
  exact h k

end Sys2Proof.Machine
end

