-- ==== Sys2Proof/Laws/Edge.lean ====
section
/-! SUPPORT. Everything one edge can answer, said once; a macro-instruction as five edges; lifting a property of one edge to
a step of either grain; and the microcode a placed opcode finds in the ROM. -/

namespace Sys2Proof.Machine

/-- The next state of a word that completes, whatever its sources (42_signal_execution.md R140 to R143). -/
theorem microStep_next {o : SignalSet} {s : State} {k : Fin 3} (h : Ready o k s)
    (hc : o.sourceCount ≤ 1 ∨ s.cfg.contention = .anyAssertedSource) :
    microStep o s = .next (advance k (latch o (busValue o (countCycle s)) (countCycle s))) := by
  obtain ⟨hp, hh, hf, -⟩ := h
  rcases microStep_cases o s with ⟨h1, -⟩ | ⟨h1, -⟩ | ⟨j, hj, h1 | h1 | h1 | h1⟩
  · simp [hp] at h1
  · simp [hp] at h1
  · simp [hh] at h1
  · exact absurd hf h1.2.1
  · rcases hc with hc | hc
    · omega
    · simp [hc] at h1
  · obtain rfl : k = j := by simpa [hp] using hj
    exact h1.2.2.2

/-- With no source the bus keeps its value (R142). -/
theorem busValue_none {o : SignalSet} (s : State) (h : o.sourceCount = 0) : busValue o s = s.bus := by
  have h' : assertedSources o = [] := List.length_eq_zero_iff.1 h
  simp [busValue, h']

/-- Everything an edge that answers a next state can have done (41_sequencer.md R135). -/
theorem edge_cases {s t : State} (h : edge s = .next t) :
    (s.phase = .halted ∧ t = s) ∨ (s.phase = .fetch0 ∧ t = doFetch0 (countCycle s)) ∨
    (s.phase = .fetch1 ∧ t = doFetch1 (readByte s.ram s.mar) (countCycle s)) ∨
    ∃ k, s.phase = .execute k ∧
      (((currentSignals s k).halt = true ∧ t = enterHalted (countCycle s)) ∨
       ((currentSignals s k).halt = false ∧
         t = advance k
           (latch (currentSignals s k) (busValue (currentSignals s k) (countCycle s)) (countCycle s)))) := by
  match hp : s.phase with
  | .halted =>
    rw [edge_halted hp] at h
    cases h
    exact .inl ⟨rfl, rfl⟩
  | .fetch0 =>
    rw [edge_fetch0 hp] at h
    cases h
    exact .inr (.inl ⟨rfl, rfl⟩)
  | .fetch1 =>
    rw [edge_fetch1 hp] at h
    cases h
    exact .inr (.inr (.inl ⟨rfl, rfl⟩))
  | .execute k =>
    rw [edge_execute hp] at h
    refine .inr (.inr (.inr ⟨k, rfl, ?_⟩))
    rcases microStep_cases (currentSignals s k) s with ⟨h1, -⟩ | ⟨h1, -⟩ | ⟨j, hj, h1 | h1 | h1 | h1⟩
    · simp [hp] at h1
    · simp [hp] at h1
    · rw [h1.2] at h
      cases h
      exact .inl ⟨h1.1, rfl⟩
    · rw [h1.2.2] at h
      cases h
    · rw [h1.2.2.2.2] at h
      cases h
    · obtain rfl : k = j := by simpa [hp] using hj
      rw [h1.2.2.2] at h
      cases h
      exact .inr ⟨h1.1, rfl⟩

/-- An edge changes none of the inputs. -/
theorem edge_const {s t : State} (h : edge s = .next t) :
    t.rom = s.rom ∧ t.cfg = s.cfg ∧ t.clock = s.clock ∧ t.grain = s.grain := by
  rcases edge_cases h with ⟨-, rfl⟩ | ⟨-, rfl⟩ | ⟨-, rfl⟩ | ⟨k, -, ⟨-, rfl⟩ | ⟨-, rfl⟩⟩ <;> simp

/-- A macro-instruction of the opcode at PC is five edges (44_macro_instructions.md R185). -/
theorem macroInstruction_edges {s : State} (h : s.phase = .fetch0) :
    macroInstruction (readByte s.ram s.pc) s =
      andThen (andThen (andThen (andThen (edge s) edge) edge) edge) edge := by
  have h1 : edge (doFetch0 (countCycle s)) = .next (fetched (readByte s.ram s.pc) s) := by
    rw [edge_fetch1 (by rfl)]
    simp [fetched]
  rw [macroInstruction_fetched _ h, edge_fetch0 h]
  simp [h1]

/-- A transitive relation that every edge keeps is kept by every step, in either grain. -/
theorem step_rel_of_edge {P : State → State → Prop} (trans : ∀ s t u, P s t → P t u → P s u)
    (he : ∀ s t, edge s = .next t → P s t) {s t : State} (h : step s = .next t) : P s t := by
  by_cases hp : s.phase = .fetch0
  · rcases hg : s.grain with _ | _
    · rw [step_eq_edge fun _ => hg] at h
      exact he _ _ h
    · rw [step_eq_macroInstruction hp hg, macroInstruction_edges hp] at h
      obtain ⟨u4, h4, h⟩ := andThen_eq_next h
      obtain ⟨u3, h3, h4⟩ := andThen_eq_next h4
      obtain ⟨u2, h2, h3⟩ := andThen_eq_next h3
      obtain ⟨u1, h1, h2⟩ := andThen_eq_next h2
      exact trans _ _ _ (trans _ _ _ (trans _ _ _ (trans _ _ _ (he _ _ h1) (he _ _ h2)) (he _ _ h3)) (he _ _ h4))
        (he _ _ h)
  · rw [step_eq_edge fun h => absurd h hp] at h
    exact he _ _ h

/-- After installing an opcode's microcode the three words it selects decode to that microcode. -/
theorem romRead_installMicrocode {sb : SigBit} (hs : sb.wf = true) (op : Byte) {r : Rom} (hr : Rom.wf r = true)
    (k : Fin 3) :
    decodeSignals sb (romRead (installMicrocode sb op r) (romAddress op k)) = microcode op k := by
  by_cases h : op.toNat < 16
  · have a : ∀ k : Fin 3, (romAddress op k).toNat < 128 := fun k => by
      rw [romAddress_toNat]
      omega
    have ne : ∀ i j : Fin 3, i ≠ j → romAddress op i ≠ romAddress op j := fun i j hij he => by
      have := congrArg BitVec.toNat he
      rw [romAddress_toNat, romAddress_toNat] at this
      exact hij (Fin.ext (by omega))
    have hk : k = 0 ∨ k = 1 ∨ k = 2 := by omega
    simp only [installMicrocode]
    rcases hk with rfl | rfl | rfl
    · rw [romRead_romWrite_other _ _ (ne 0 2 (by decide)), romRead_romWrite_other _ _ (ne 0 1 (by decide)),
        romRead_romWrite_same hr _ (a 0), decode_encode_signals hs]
    · rw [romRead_romWrite_other _ _ (ne 1 2 (by decide)), romRead_romWrite_same (romWrite_wf hr _ _) _ (a 1),
        decode_encode_signals hs]
    · rw [romRead_romWrite_same (romWrite_wf (romWrite_wf hr _ _) _ _) _ (a 2), decode_encode_signals hs]
  · have hz : ∀ (op : Byte) (k : Fin 3), 16 ≤ op.toNat → microcode op k = {} := by decide
    rw [romRead_out_of_range _ _ (by omega), decodeSignals_zero, hz op k (by omega)]

/-- The state after fetching an opcode, written out (41_sequencer.md R122, R123). -/
theorem fetched_eq (op : Byte) (s : State) :
    fetched op s = { s with
      mar := s.pc, bus := op, ir := op, pc := s.pc + 1, phase := .execute 0, cycles := s.cycles + 2 } := by
  have hl : lowNibble (zext8 s.pc) = s.pc := lowNibble_zext8 _
  simp only [fetched, doFetch1, countCycle, doFetch0]
  rw [hl]

/-- The state after the Execute micro-step `k` of a word with at most one source, without HALT. -/
def afterWord (o : SignalSet) (k : Fin 3) (s : State) : State :=
  advance k (latch o (drivenValue o s) (countCycle s))

/-- A macro-instruction whose microcode has no HALT, no IR_IN and no contention is its three words, one after another. -/
theorem macroInstruction_of_microcode {op : Byte} {s : State} (hp : s.phase = .fetch0) (hm : HoldsMicrocode op s)
    (hw : ∀ k, (microcode op k).halt = false ∧ (microcode op k).irIn = false ∧ (microcode op k).sourceCount ≤ 1)
    (hf : ∀ k, FlagsAllowed (microcode op k) s) :
    macroInstruction op s =
      .next (afterWord (microcode op 2) 2 (afterWord (microcode op 1) 1 (afterWord (microcode op 0) 0 (fetched op s)))) := by
  have h0 := edge_of_signals (u := fetched op s) (k := 0) rfl (currentSignals_of_microcode (u := fetched op s) hm rfl rfl rfl 0) (hw 0).1
    (hf 0) (hw 0).2.2
  have i1 : (afterWord (microcode op 0) 0 (fetched op s)).ir = op := by
    simp [afterWord, (hw 0).2.1, fetched]
  have h1 := edge_of_signals (u := afterWord (microcode op 0) 0 (fetched op s)) (k := 1) rfl
    (currentSignals_of_microcode hm i1 rfl rfl 1) (hw 1).1 (hf 1) (hw 1).2.2
  have i2 : (afterWord (microcode op 1) 1 (afterWord (microcode op 0) 0 (fetched op s))).ir = op := by
    rw [afterWord, advance_ir, latch_ir, (hw 1).2.1]
    exact i1
  have h2 := edge_of_signals (u := afterWord (microcode op 1) 1 (afterWord (microcode op 0) 0 (fetched op s))) (k := 2) rfl
    (currentSignals_of_microcode hm i2 rfl rfl 2) (hw 2).1 (hf 2) (hw 2).2.2
  rw [macroInstruction_fetched op hp, h0, andThen_next]
  rw [show advance 0 (latch (microcode op 0) (drivenValue (microcode op 0) (fetched op s)) (countCycle (fetched op s))) =
    afterWord (microcode op 0) 0 (fetched op s) from rfl, h1, andThen_next]
  exact h2

/-- Several steps of one micro-cycle are as many edges. -/
theorem steps_succ_edge {s : State} (n : Nat) (h : s.grain = .microCycle) :
    steps (n + 1) s = andThen (edge s) (steps n) := by
  rw [steps, step_eq_edge fun _ => h]

end Sys2Proof.Machine
end

