-- ==== Sys2Proof/Laws/Clock.lean ====
section
/-! SUPPORT. What the Clock's callbacks can do, each said once: the callbacks of an edge are as many micro-cycles as core
`Step`s among them, they leave the Clock alone, and the failing observers are reported (60_exceptions.md R225 to R228). -/

namespace Sys2Proof.Machine

/-- The callbacks of an edge are one micro-cycle for each core `Step` among them; observers change nothing (log 20). -/
theorem fireAll_eq_edges (cbs : List Callback) (s : State) : fireAll cbs s = edges (cbs.count .coreStep) s := by
  have key : ∀ (l : List Callback) (r : Result), l.foldl fireOne r = andThen r (edges (l.count .coreStep)) := by
    intro l
    induction l with
    | nil => intro r; cases r <;> rfl
    | cons cb rest ih =>
      intro r
      rw [List.foldl_cons, ih]
      cases cb with
      | coreStep => cases r <;> simp [fireOne, edges]
      | observer n => simp [fireOne]
  exact key cbs (.next s)

/-- One micro-cycle. -/
theorem edges_one (s : State) : edges 1 s = edge s := by
  simp only [edges]
  cases edge s <;> rfl

/-- Micro-cycles change none of the inputs. -/
theorem edges_const {s t : State} {n : Nat} (h : edges n s = .next t) :
    t.rom = s.rom ∧ t.cfg = s.cfg ∧ t.clock = s.clock ∧ t.grain = s.grain := by
  induction n generalizing s with
  | zero => cases h; exact ⟨rfl, rfl, rfl, rfl⟩
  | succ n ih =>
    obtain ⟨u, hu, ht⟩ := andThen_eq_next h
    obtain ⟨h1, h2, h3, h4⟩ := ih ht
    obtain ⟨g1, g2, g3, g4⟩ := edge_const hu
    exact ⟨h1.trans g1, h2.trans g2, h3.trans g3, h4.trans g4⟩

/-- What follows the callbacks of an edge sees the Clock of before them. -/
theorem andThen_edges_congr (n : Nat) (s : State) {f g : State → Result} (h : ∀ t, t.clock = s.clock → f t = g t) :
    andThen (edges n s) f = andThen (edges n s) g := by
  cases he : edges n s with
  | next t => exact h t (edges_const he).2.2.1
  | fault e => rfl
  | refused e => rfl

/-- A sequence of three, regrouped. -/
theorem andThen_assoc (r : Result) (f g : State → Result) :
    andThen (andThen r f) g = andThen r fun t => andThen (f t) g := by
  cases r <;> rfl

/-- Exactly the failing observers are reported (R228). -/
theorem mem_failures (failing : Nat → Bool) (cbs : List Callback) (n : Nat) :
    n ∈ failures failing cbs ↔ failing n = true ∧ Callback.observer n ∈ cbs := by
  simp only [failures, List.mem_filterMap]
  constructor
  · rintro ⟨cb, hm, h⟩
    cases cb with
    | coreStep => cases h
    | observer k =>
      by_cases hk : failing k = true
      · obtain rfl : k = n := by simpa [hk] using h
        exact ⟨hk, hm⟩
      · simp [hk] at h
  · rintro ⟨hf, hm⟩
    exact ⟨_, hm, by simp [hf]⟩

end Sys2Proof.Machine
end

