-- ==== Sys2Proof/Laws/PerInstr.lean ====
section
/-! SUPPORT. The per-instruction family NamesItsWord: the name of the signal set of a well-formed control-word instruction
is that instruction (log 11), which is the instruction half of "decode of encode is the instruction". -/

namespace Sys2Proof.Laws

/-- The control-word instruction a signal heads. -/
def NamesItsWord.headedBy (o : SignalSet) : Signal → Instr
  | .pcOut => .pcOut o
  | .ramOut => .ramOut o
  | .irOut => .irOut o
  | .aOut => .aOut o
  | .bOut => .bOut o
  | .aluOut => .aluOut o
  | .marIn => .marIn o
  | .ramIn => .ramIn o
  | .irIn => .irIn o
  | .aIn => .aIn o
  | .bIn => .bIn o
  | .pcInc => .pcInc o
  | .aluSub => .aluSub o
  | .flagsIn => .flagsIn o
  | .halt => .halt o

/-- The name of a word is headed by its first signal in the order `Signal.ranked`. -/
theorem NamesItsWord.ofSignals_headedBy {o : SignalSet} {g : Signal} (h : o.startsAfter g = true) :
    Instr.ofSignals (o.assert g) = NamesItsWord.headedBy o g := by
  have hg : o.get g = false := by
    simp only [SignalSet.startsAfter, Bool.and_eq_true, Bool.not_eq_true'] at h
    exact h.1
  have hd : (o.assert g).drop g = o := SignalSet.drop_assert hg
  have hget := o.get_assert g
  generalize o.assert g = p at hd hget ⊢
  have h0 : p.pcOut = (decide (Signal.pcOut = g) || o.pcOut) := hget .pcOut
  have h1 : p.ramOut = (decide (Signal.ramOut = g) || o.ramOut) := hget .ramOut
  have h2 : p.irOut = (decide (Signal.irOut = g) || o.irOut) := hget .irOut
  have h3 : p.aOut = (decide (Signal.aOut = g) || o.aOut) := hget .aOut
  have h4 : p.bOut = (decide (Signal.bOut = g) || o.bOut) := hget .bOut
  have h5 : p.aluOut = (decide (Signal.aluOut = g) || o.aluOut) := hget .aluOut
  have h6 : p.marIn = (decide (Signal.marIn = g) || o.marIn) := hget .marIn
  have h7 : p.ramIn = (decide (Signal.ramIn = g) || o.ramIn) := hget .ramIn
  have h8 : p.irIn = (decide (Signal.irIn = g) || o.irIn) := hget .irIn
  have h9 : p.aIn = (decide (Signal.aIn = g) || o.aIn) := hget .aIn
  have h10 : p.bIn = (decide (Signal.bIn = g) || o.bIn) := hget .bIn
  have h11 : p.pcInc = (decide (Signal.pcInc = g) || o.pcInc) := hget .pcInc
  have h12 : p.aluSub = (decide (Signal.aluSub = g) || o.aluSub) := hget .aluSub
  have h13 : p.flagsIn = (decide (Signal.flagsIn = g) || o.flagsIn) := hget .flagsIn
  have h14 : p.halt = (decide (Signal.halt = g) || o.halt) := hget .halt
  cases g <;>
    simp [SignalSet.startsAfter, Signal.ranked, SignalSet.get] at h <;>
    simp [Instr.ofSignals, NamesItsWord.headedBy, hd, h, h0, h1, h2, h3, h4, h5, h6, h7, h8, h9, h10, h11, h12, h13, h14]

/-- A well-formed instruction that is a control word is the name of its signal set. -/
def NamesItsWord.Statement (i : Instr) : Prop :=
  i.wf = true → ∀ o : SignalSet, i.signals = some o → Instr.ofSignals o = i

theorem NamesItsWord.pcOut (others : SignalSet) : NamesItsWord.Statement (.pcOut others) := by
  rintro hw _ ⟨⟩
  exact NamesItsWord.ofSignals_headedBy hw

theorem NamesItsWord.ramOut (others : SignalSet) : NamesItsWord.Statement (.ramOut others) := by
  rintro hw _ ⟨⟩
  exact NamesItsWord.ofSignals_headedBy hw

theorem NamesItsWord.irOut (others : SignalSet) : NamesItsWord.Statement (.irOut others) := by
  rintro hw _ ⟨⟩
  exact NamesItsWord.ofSignals_headedBy hw

theorem NamesItsWord.aOut (others : SignalSet) : NamesItsWord.Statement (.aOut others) := by
  rintro hw _ ⟨⟩
  exact NamesItsWord.ofSignals_headedBy hw

theorem NamesItsWord.bOut (others : SignalSet) : NamesItsWord.Statement (.bOut others) := by
  rintro hw _ ⟨⟩
  exact NamesItsWord.ofSignals_headedBy hw

theorem NamesItsWord.aluOut (others : SignalSet) : NamesItsWord.Statement (.aluOut others) := by
  rintro hw _ ⟨⟩
  exact NamesItsWord.ofSignals_headedBy hw

theorem NamesItsWord.marIn (others : SignalSet) : NamesItsWord.Statement (.marIn others) := by
  rintro hw _ ⟨⟩
  exact NamesItsWord.ofSignals_headedBy hw

theorem NamesItsWord.ramIn (others : SignalSet) : NamesItsWord.Statement (.ramIn others) := by
  rintro hw _ ⟨⟩
  exact NamesItsWord.ofSignals_headedBy hw

theorem NamesItsWord.irIn (others : SignalSet) : NamesItsWord.Statement (.irIn others) := by
  rintro hw _ ⟨⟩
  exact NamesItsWord.ofSignals_headedBy hw

theorem NamesItsWord.aIn (others : SignalSet) : NamesItsWord.Statement (.aIn others) := by
  rintro hw _ ⟨⟩
  exact NamesItsWord.ofSignals_headedBy hw

theorem NamesItsWord.bIn (others : SignalSet) : NamesItsWord.Statement (.bIn others) := by
  rintro hw _ ⟨⟩
  exact NamesItsWord.ofSignals_headedBy hw

theorem NamesItsWord.pcInc (others : SignalSet) : NamesItsWord.Statement (.pcInc others) := by
  rintro hw _ ⟨⟩
  exact NamesItsWord.ofSignals_headedBy hw

theorem NamesItsWord.aluSub (others : SignalSet) : NamesItsWord.Statement (.aluSub others) := by
  rintro hw _ ⟨⟩
  exact NamesItsWord.ofSignals_headedBy hw

theorem NamesItsWord.flagsIn (others : SignalSet) : NamesItsWord.Statement (.flagsIn others) := by
  rintro hw _ ⟨⟩
  exact NamesItsWord.ofSignals_headedBy hw

theorem NamesItsWord.halt (others : SignalSet) : NamesItsWord.Statement (.halt others) := by
  rintro hw _ ⟨⟩
  exact NamesItsWord.ofSignals_headedBy hw

theorem NamesItsWord.nopWord : NamesItsWord.Statement .nopWord := by
  rintro _ _ ⟨⟩
  rfl

theorem NamesItsWord.fetch0 : NamesItsWord.Statement .fetch0 := fun _ _ h => nomatch h

theorem NamesItsWord.fetch1 : NamesItsWord.Statement .fetch1 := fun _ _ h => nomatch h

theorem NamesItsWord.nop : NamesItsWord.Statement .nop := fun _ _ h => nomatch h

theorem NamesItsWord.hlt : NamesItsWord.Statement .hlt := fun _ _ h => nomatch h

theorem NamesItsWord.ldiA : NamesItsWord.Statement .ldiA := fun _ _ h => nomatch h

theorem NamesItsWord.ldiB : NamesItsWord.Statement .ldiB := fun _ _ h => nomatch h

theorem NamesItsWord.sta : NamesItsWord.Statement .sta := fun _ _ h => nomatch h

theorem NamesItsWord.add : NamesItsWord.Statement .add := fun _ _ h => nomatch h

theorem NamesItsWord.out : NamesItsWord.Statement .out := fun _ _ h => nomatch h

theorem NamesItsWord.lda : NamesItsWord.Statement .lda := fun _ _ h => nomatch h

theorem NamesItsWord.sub : NamesItsWord.Statement .sub := fun _ _ h => nomatch h

theorem NamesItsWord.cmp : NamesItsWord.Statement .cmp := fun _ _ h => nomatch h

theorem NamesItsWord.bad : NamesItsWord.Statement .bad := fun _ _ h => nomatch h

theorem NamesItsWord.nop05 : NamesItsWord.Statement .nop05 := fun _ _ h => nomatch h

theorem NamesItsWord.nop07 : NamesItsWord.Statement .nop07 := fun _ _ h => nomatch h

theorem NamesItsWord.nop0C : NamesItsWord.Statement .nop0C := fun _ _ h => nomatch h

theorem NamesItsWord.nop0D : NamesItsWord.Statement .nop0D := fun _ _ h => nomatch h

theorem NamesItsWord.nop0E : NamesItsWord.Statement .nop0E := fun _ _ h => nomatch h

theorem NamesItsWord.nopHigh7 (x : BitVec 7) : NamesItsWord.Statement (.nopHigh7 x) := fun _ _ h => nomatch h

theorem NamesItsWord.nopHigh6 (x : BitVec 6) : NamesItsWord.Statement (.nopHigh6 x) := fun _ _ h => nomatch h

theorem NamesItsWord.nopHigh5 (x : BitVec 5) : NamesItsWord.Statement (.nopHigh5 x) := fun _ _ h => nomatch h

theorem NamesItsWord.nopHigh4 (x : BitVec 4) : NamesItsWord.Statement (.nopHigh4 x) := fun _ _ h => nomatch h

end Sys2Proof.Laws
end

