-- ==== Sys2Proof/Tests/Slice0.lean ====
section
/-! SUPPORT. The author's own tests: ill-formed terms refused, decoding of written-out words, one-step effects with expected
values from the spec's vectors (95_test_vectors.md, 30_encoding.md, 44_macro_instructions.md), and one witness for the
hypotheses of each obligation that has some. -/

namespace Sys2Proof.Tests

open Sys2Proof.Machine

/-! ### Helpers -/

/-- The next state of an outcome, if it is one. -/
def after : Result → Option State
  | .next s => some s
  | .fault _ => none
  | .refused _ => none

/-- The fault of an outcome, if it is one. -/
def faultOf : Result → Option Fault
  | .next _ => none
  | .fault e => some e
  | .refused _ => none

/-- The refusal of an outcome, if it is one. -/
def refusalOf : Result → Option Refusal
  | .next _ => none
  | .fault _ => none
  | .refused e => some e

/-- The reset state at an Execute step. -/
def exe (k : Fin 3) : State := { State.reset with phase := .execute k }

/-- A control word as an instruction under the default SIGBIT, run on a state. -/
def run (cw : ControlWord) (s : State) : Option State := after (exec (decodeControlWord {} cw) s)

/-- The reset state with TESTROM (R198; REFROM and four more opcodes), a PC and RAM contents. -/
def boot (pc : Nibble) (ram : Memory) : State := { State.reset with rom := Config.testrom, pc := pc, ram := ram }

/-- A ROM with one control word, at opcode 0, step 0, and the sequencer about to execute it. -/
def atWord (cw : ControlWord) : State := { exe 0 with rom := [(0, cw)] }

/-! ### WellFormed: ill-formed terms are refused -/

theorem smoke_sigbit_shared_bit : SigBit.wf { halt := 0 } = false := by decide
theorem smoke_sigbit_default : SigBit.wf {} = true := by decide
theorem smoke_word_two_sources : SignalSet.wf { aOut := true, bOut := true } = false := by decide
theorem smoke_word_halt_exempt : SignalSet.wf { aOut := true, bOut := true, halt := true } = true := by decide
theorem smoke_instr_repeated_signal : Instr.wf (.aIn { aIn := true }) = false := by decide
theorem smoke_instr_not_first : Instr.wf (.aIn { aOut := true }) = false := by decide
theorem smoke_instr_not_first_halt : Instr.wf (.pcOut { halt := true }) = false := by decide
theorem smoke_instr_first : Instr.wf (.aOut { aIn := true }) = true := by decide
theorem smoke_ram_default_listed : Memory.wf [(3, 0x00#8)] = false := by decide
theorem smoke_ram_unsorted : Memory.wf [(3, 0x01#8), (2, 0x01#8)] = false := by decide
theorem smoke_ram_beyond : Memory.wf [(16, 0x01#8)] = false := by decide
theorem smoke_rom_beyond : Rom.wf [(128, 0x0001#16)] = false := by decide
theorem smoke_roms : Rom.wf Config.refrom = true ∧ Rom.wf Config.testrom = true := by decide

/-! ### Decoding of words written out from the encodings (R82 default positions, R87, R93, R196) -/

theorem test_decode_pcOut : decodeTableWord 16 0x0001 = some (.pcOut {}) := by decide
theorem test_decode_ramOut : decodeTableWord 16 0x0002 = some (.ramOut {}) := by decide
theorem test_decode_irOut : decodeTableWord 16 0x0004 = some (.irOut {}) := by decide
theorem test_decode_aOut : decodeTableWord 16 0x0008 = some (.aOut {}) := by decide
theorem test_decode_bOut : decodeTableWord 16 0x0010 = some (.bOut {}) := by decide
theorem test_decode_aluOut : decodeTableWord 16 0x0020 = some (.aluOut {}) := by decide
theorem test_decode_marIn : decodeTableWord 16 0x0040 = some (.marIn {}) := by decide
theorem test_decode_ramIn : decodeTableWord 16 0x0080 = some (.ramIn {}) := by decide
theorem test_decode_irIn : decodeTableWord 16 0x0100 = some (.irIn {}) := by decide
theorem test_decode_aIn : decodeTableWord 16 0x0200 = some (.aIn {}) := by decide
theorem test_decode_bIn : decodeTableWord 16 0x0400 = some (.bIn {}) := by decide
theorem test_decode_pcInc : decodeTableWord 16 0x0800 = some (.pcInc {}) := by decide
theorem test_decode_aluSub : decodeTableWord 16 0x1000 = some (.aluSub {}) := by decide
theorem test_decode_flagsIn : decodeTableWord 16 0x2000 = some (.flagsIn {}) := by decide
theorem test_decode_halt : decodeTableWord 16 0x4000 = some (.halt {}) := by decide
theorem test_decode_nopWord : decodeTableWord 16 0x0000 = some .nopWord := by decide
theorem test_decode_nop : decodeTableWord 8 0x00 = some .nop := by decide
theorem test_decode_hlt : decodeTableWord 8 0x01 = some .hlt := by decide
theorem test_decode_ldiA : decodeTableWord 8 0x02 = some .ldiA := by decide
theorem test_decode_ldiB : decodeTableWord 8 0x03 = some .ldiB := by decide
theorem test_decode_lda : decodeTableWord 8 0x04 = some .lda := by decide
theorem test_decode_nop05 : decodeTableWord 8 0x05 = some .nop05 := by decide
theorem test_decode_sta : decodeTableWord 8 0x06 = some .sta := by decide
theorem test_decode_nop07 : decodeTableWord 8 0x07 = some .nop07 := by decide
theorem test_decode_add : decodeTableWord 8 0x08 = some .add := by decide
theorem test_decode_sub : decodeTableWord 8 0x09 = some .sub := by decide
theorem test_decode_cmp : decodeTableWord 8 0x0A = some .cmp := by decide
theorem test_decode_bad : decodeTableWord 8 0x0B = some .bad := by decide
theorem test_decode_nop0C : decodeTableWord 8 0x0C = some .nop0C := by decide
theorem test_decode_nop0D : decodeTableWord 8 0x0D = some .nop0D := by decide
theorem test_decode_nop0E : decodeTableWord 8 0x0E = some .nop0E := by decide
theorem test_decode_out : decodeTableWord 8 0x0F = some .out := by decide
theorem test_decode_nopHigh7 : decodeTableWord 8 0x80 = some (.nopHigh7 0x00#7) := by decide
theorem test_decode_nopHigh6 : decodeTableWord 8 0x7F = some (.nopHigh6 0x3F#6) := by decide
theorem test_decode_nopHigh5 : decodeTableWord 8 0x2A = some (.nopHigh5 0x0A#5) := by decide
theorem test_decode_nopHigh4 : decodeTableWord 8 0x10 = some (.nopHigh4 0x0#4) := by decide

/-- FETCH0 and FETCH1 have no encoding: the phase selects them (R92), and the decoder refuses their format by name. -/
theorem test_fetch_by_phase :
    fetchInstr State.reset = some .fetch0 ∧ fetchInstr { State.reset with phase := .fetch1 } = some .fetch1 ∧
    encode {} .fetch0 = none ∧ decodeBytes {} .seq [0x00#8, 0x00#8] = .error .noEncoding := ⟨rfl, rfl, rfl, rfl⟩

/-- 95_test_vectors.md E4, E9, E11, E16: several signals, and bit 15 ignored. -/
theorem test_decode_sets :
    decodeSignals {} 0x0A02#16 = { ramOut := true, aIn := true, pcInc := true } ∧
    decodeSignals {} 0x3220#16 = { aluOut := true, aIn := true, aluSub := true, flagsIn := true } ∧
    decodeSignals {} 0xC000#16 = { halt := true } ∧
    decodeSignals {} 0x1234#16 = { irOut := true, bOut := true, aluOut := true, aIn := true, aluSub := true } := by decide

/-- R87, R82 with another SIGBIT: the signal moves with its bit. -/
theorem test_decode_other_sigbit :
    decodeControlWord { halt := 15 } 0x8000#16 = .halt {} ∧ decodeControlWord { halt := 15 } 0x4000#16 = .nopWord := by decide

/-- A word of another width than 8 or 16 bits is no instruction. -/
theorem test_decode_width : decodeTableWord 32 0x0001 = none ∧ decodeTableWord 8 0x100 = none := by decide

/-! ### Control words: one micro-step each (vectors S, A and Q of 95_test_vectors.md) -/

/-- S1. -/
theorem test_pcOut : (run 0x0201 { exe 0 with pc := 0x3, bus := 0x77 }).map (fun t => (t.bus, t.a, t.pc)) =
    some (0x03, 0x03, 0x3) := by decide
/-- S8: the PC from before the increment. -/
theorem test_pcOut_old : (run 0x0841 { exe 0 with pc := 0x4 }).map (fun t => (t.bus, t.mar, t.pc)) =
    some (0x04, 0x4, 0x5) := by decide
/-- S2. -/
theorem test_ramOut : (run 0x0A02 { exe 0 with mar := 0x1, ram := [(1, 0x07)], pc := 0x1 }).map
    (fun t => (t.bus, t.a, t.pc)) = some (0x07, 0x07, 0x2) := by decide
/-- S7: MAR from the bus's low nibble, RAM at the old MAR. -/
theorem test_ramOut_marIn : (run 0x0842 { exe 0 with mar := 0x6, ram := [(6, 0x3E)], pc := 0x6 }).map
    (fun t => (t.bus, t.mar, t.pc)) = some (0x3E, 0xE, 0x7) := by decide
/-- S3. -/
theorem test_irOut : (run 0x0404 { exe 0 with ir := 0x0F }).map (fun t => (t.bus, t.b, t.ir)) =
    some (0x0F, 0x0F, 0x0F) := by decide
/-- S6: several sinks. -/
theorem test_aOut : (run 0x0448 { exe 0 with a := 0x2C }).map (fun t => (t.bus, t.b, t.mar)) =
    some (0x2C, 0x2C, 0xC) := by decide
/-- S5. -/
theorem test_bOut : (run 0x0210 { exe 0 with b := 0x02, a := 0x55 }).map (fun t => (t.bus, t.a)) =
    some (0x02, 0x02) := by decide
/-- S12: RAM at the old MAR. -/
theorem test_bOut_ramIn : (run 0x00D0 { exe 0 with b := 0x9C, mar := 0x2 }).map (fun t => (t.bus, t.ram, t.mar)) =
    some (0x9C, [(2, 0x9C)], 0xC) := by decide
/-- A2. -/
theorem test_aluOut_add : (run 0x2220 { exe 0 with a := 0xFF, b := 0x01 }).map
    (fun t => (t.bus, t.a, t.b, t.flagC, t.flagZ)) = some (0x00, 0x00, 0x01, true, true) := by decide
/-- A12. -/
theorem test_aluOut_sub : (run 0x3220 { exe 0 with a := 0x02, b := 0x07 }).map
    (fun t => (t.bus, t.a, t.flagC, t.flagZ)) = some (0xFB, 0xFB, true, false) := by decide
/-- S9 for A_IN: the kept bus. -/
theorem test_aIn : (run 0x0200 { exe 0 with bus := 0x05 }).map (fun t => (t.a, t.bus)) = some (0x05, 0x05) := by decide
/-- A27: loading zero does not set Zero, and clears no flag. -/
theorem test_aIn_flags : (run 0x0202 { exe 0 with a := 0x05, b := 0x03, flagC := true, flagZ := true }).map
    (fun t => (t.a, t.flagC, t.flagZ)) = some (0x00, true, true) := by decide
/-- R152, R142. -/
theorem test_bIn : (run 0x0400 { exe 0 with bus := 0x9C }).map (fun t => (t.b, t.a)) = some (0x9C, 0x00) := by decide
/-- R149, R142. -/
theorem test_marIn : (run 0x0040 { exe 0 with bus := 0x3E }).map (fun t => (t.mar, t.bus)) = some (0xE, 0x3E) := by decide
/-- R154, R142: a store of the default value unlists the address. -/
theorem test_ramIn : (run 0x0080 { exe 0 with bus := 0x00, mar := 0xE, ram := [(14, 0x09)] }).map (fun t => t.ram) =
    some [] := by decide
/-- S17: IR from RAM, the next step reads ROM word 0x41. -/
theorem test_irIn : (run 0x0102 { exe 0 with ram := [(0, 0x08)], ir := 0x05 }).map
    (fun t => (t.bus, t.ir, t.phase, romAddress t.ir 1)) = some (0x08, 0x08, .execute 1, 0x041) := by decide
/-- S13: the wrap sets no carry. -/
theorem test_pcInc : (run 0x0800 { exe 0 with pc := 0xF, bus := 0xAA }).map (fun t => (t.pc, t.bus, t.flagC)) =
    some (0x0, 0xAA, false) := by decide
/-- S18: ALU_SUB alone. -/
theorem test_aluSub : (run 0x1000 { exe 0 with a := 0x11, b := 0x22, flagC := true }).map
    (fun t => (t.a, t.b, t.bus, t.flagC, t.flagZ)) = some (0x11, 0x22, 0x00, true, false) := by decide
/-- A24: the compare word. -/
theorem test_flagsIn : (run 0x3000 { exe 0 with a := 0x03, b := 0x09, bus := 0x0A }).map
    (fun t => (t.a, t.b, t.bus, t.flagC, t.flagZ)) = some (0x03, 0x09, 0x0A, true, false) := by decide
/-- A26: the flags do not describe the bus value. -/
theorem test_flagsIn_aOut : (run 0x2008 { exe 0 with a := 0xFF, b := 0x01 }).map
    (fun t => (t.bus, t.flagC, t.flagZ)) = some (0xFF, true, true) := by decide
/-- Q6: every signal asserted: HALT, nothing applied, the micro-cycle counted. -/
theorem test_halt : (run 0x7FFF { exe 0 with pc := 0x1, ir := 0x01, a := 0x11, b := 0x22, bus := 0x01, cycles := 2 }).map
    (fun t => (t.phase, t.pc, t.a, t.bus, t.cycles)) = some (.halted, 0x1, 0x11, 0x01, 3) := by decide
/-- Q11: HALT at step 1 halts there. -/
theorem test_halt_step1 : (after (step { exe 1 with pc := 0x2, ir := 0x06, rom := [(49, 0x4000)] })).map
    (fun t => (t.phase, t.pc, t.instructions)) = some (.halted, 0x2, 0) := by decide
/-- Q7: the wrap to Fetch0 counts the instruction. -/
theorem test_nopWord : (run 0x0000 { exe 2 with cycles := 14, instructions := 2, bus := 0x09 }).map
    (fun t => (t.phase, t.cycles, t.instructions, t.bus)) = some (.fetch0, 15, 3, 0x09) := by decide
/-- Q2. -/
theorem test_fetch0 : (after (exec .fetch0 { State.reset with pc := 0xF, mar := 0x3, ir := 0x55, bus := 0x9C })).map
    (fun t => (t.phase, t.pc, t.mar, t.ir, t.bus, t.cycles)) = some (.fetch1, 0xF, 0xF, 0x55, 0x0F, 1) := by decide
/-- Q3. -/
theorem test_fetch1 :
    (after (exec .fetch1 { State.reset with phase := .fetch1, pc := 0xF, mar := 0xF, ram := [(15, 0xA7)] })).map
    (fun t => (t.phase, t.pc, t.mar, t.ir, t.bus)) = some (.execute 0, 0x0, 0xF, 0xA7, 0xA7) := by decide
/-- S15: contention, and S16. -/
theorem test_contention :
    faultOf (exec (decodeControlWord {} 0x0018) { exe 0 with ir := 0x2A }) =
      some (.busContention 0x2A 0 [.aOut, .bOut]) ∧
    faultOf (exec (decodeControlWord {} 0xBFFF) (exe 1)) =
      some (.busContention 0x00 1 [.pcOut, .ramOut, .irOut, .aOut, .bOut, .aluOut]) := by decide

/-! ### Macro-instructions under TESTROM (vectors H of 95_test_vectors.md) -/

/-- The microcode table of Machine/Microcode.lean is the one TESTROM holds (R188, R198), for every in-range opcode. -/
theorem test_testrom_holds_the_microcode : ∀ (i : Fin 16) (k : Fin 3),
    decodeSignals {} (romRead Config.testrom (romAddress (BitVec.ofNat 8 i.val) k)) =
      microcode (BitVec.ofNat 8 i.val) k := by decide

/-- H1. -/
theorem test_ldiA : (after (exec .ldiA (boot 0 [(0, 0x02), (1, 0x07)]))).map
    (fun t => (t.a, t.pc, t.mar, t.ir, t.bus, t.cycles)) = some (0x07, 0x2, 0x1, 0x02, 0x07, 5) := by decide
/-- H7: the operand at address 0. -/
theorem test_ldiA_wrap : (after (exec .ldiA (boot 0xF [(0, 0x77), (15, 0x02)]))).map (fun t => (t.a, t.pc, t.mar)) =
    some (0x77, 0x1, 0x0) := by decide
/-- H2. -/
theorem test_ldiB : (after (exec .ldiB (boot 2 [(2, 0x03), (3, 0x02)]))).map (fun t => (t.b, t.pc, t.mar, t.bus)) =
    some (0x02, 0x4, 0x3, 0x02) := by decide
/-- H8. -/
theorem test_sta : (after (exec .sta { boot 2 [(2, 0x06), (3, 0x3E)] with a := 0xAB })).map
    (fun t => (t.ram, t.mar, t.pc, t.bus)) = some ([(2, 0x06), (3, 0x3E), (14, 0xAB)], 0xE, 0x4, 0xAB) := by decide
/-- H12: a store over the instruction's own opcode byte. -/
theorem test_sta_self : (after (exec .sta { boot 1 [(1, 0x06), (2, 0x01)] with a := 0x5A })).map
    (fun t => (t.ram, t.pc)) = some ([(1, 0x5A), (2, 0x01)], 0x3) := by decide
/-- H9. -/
theorem test_add : (after (exec .add { boot 0 [(0, 0x08)] with a := 0xFF, b := 0x01 })).map
    (fun t => (t.a, t.flagC, t.flagZ, t.bus, t.pc)) = some (0x00, true, true, 0x00, 0x1) := by decide
/-- H5. -/
theorem test_out : (after (exec .out { boot 7 [(7, 0x0F)] with a := 0x09 })).map (fun t => (t.bus, t.pc, t.mar, t.ir)) =
    some (0x09, 0x8, 0x7, 0x0F) := by decide
/-- H6. -/
theorem test_hlt : (after (exec .hlt (boot 8 [(8, 0x01)]))).map
    (fun t => (t.phase, t.pc, t.mar, t.bus, t.cycles, t.instructions)) = some (.halted, 0x9, 0x8, 0x01, 3, 0) := by decide
/-- H13. -/
theorem test_lda : (after (exec .lda { boot 0 [(0, 0x04), (1, 0x09), (9, 0xC3)] with flagZ := true })).map
    (fun t => (t.a, t.pc, t.mar, t.bus, t.flagZ)) = some (0xC3, 0x2, 0x9, 0xC3, true) := by decide
/-- H14. -/
theorem test_sub : (after (exec .sub { boot 0 [(0, 0x09)] with a := 0x02, b := 0x07 })).map
    (fun t => (t.a, t.flagC, t.flagZ, t.bus)) = some (0xFB, true, false, 0xFB) := by decide
/-- H15. -/
theorem test_cmp : (after (exec .cmp { boot 0 [(0, 0x0A)] with a := 0x09, b := 0x09 })).map
    (fun t => (t.a, t.b, t.flagC, t.flagZ, t.bus)) = some (0x09, 0x09, false, true, 0x0A) := by decide
/-- H16. -/
theorem test_bad : faultOf (exec .bad { boot 0 [(0, 0x0B)] with a := 0x01, b := 0x02 }) =
    some (.busContention 0x0B 0 [.aOut, .bOut]) := by decide
/-- H11 and R197: opcodes without microcode. -/
theorem test_nops : [(Instr.nop, 0x00#8), (.nop05, 0x05), (.nop07, 0x07), (.nop0C, 0x0C), (.nop0D, 0x0D),
      (.nop0E, 0x0E)].all (fun p => (after (exec p.1 (boot 3 []))).map (fun t => (t.pc, t.mar, t.ir, t.bus, t.cycles)) ==
    some (0x4, 0x3, p.2, p.2, 5)) = true := by decide
/-- H10 and the four rows of R196. -/
theorem test_out_of_range : [(Instr.nopHigh7 0x7F, 0xFF#8), (.nopHigh6 0x00, 0x40), (.nopHigh5 0x0A, 0x2A),
      (.nopHigh4 0x0, 0x10)].all (fun p => (after (exec p.1 (boot 0 []))).map (fun t => (t.pc, t.mar, t.ir, t.bus, t.cycles)) ==
    some (0x1, 0x0, p.2, p.2, 5)) = true := by decide

/-! ### ROM image, ROM addresses, program load (vectors M) -/

/-- R199: the bytes of the REFROM image, and R198's additions. -/
theorem test_rom_images :
    ((List.range 256).filter fun k => (imageOfRom Config.refrom).getD k 0 != 0) =
      [0x11, 0x20, 0x22, 0x23, 0x30, 0x32, 0x33, 0x60, 0x62, 0x63, 0x64, 0x80, 0x81, 0xF0] ∧
    [0x11, 0x20, 0x22, 0x23, 0x33, 0x63, 0x64, 0x81, 0xF0].map (fun k => (imageOfRom Config.refrom).getD k 0#8) =
      [0x40, 0x41, 0x02, 0x0A, 0x0C, 0x08, 0x88, 0x22, 0x08] ∧
    [0x40, 0x44, 0x45, 0x90, 0x91, 0xA1, 0xB0].map (fun k => (imageOfRom Config.testrom).getD k 0#8) =
      [0x41, 0x02, 0x02, 0x20, 0x32, 0x30, 0x18] := by decide +kernel
/-- M9 and D23. -/
theorem test_romOfImage : (romOfImage (imageOfRom Config.refrom)).map (fun r => (r, Cells.read 0#16 r 17)) =
    some (Config.refrom, 0x0A02#16) ∧ romOfImage [0x00] = none := by decide +kernel
/-- M3, M5, M8. -/
theorem test_romAddress : romAddress 0x02 1 = 17 ∧ romRead Config.refrom (romAddress 0x02 1) = 0x0A02 ∧
    romAddress 0x10 0 = 128 ∧ romRead Config.refrom (romAddress 0x10 0) = 0 ∧ romAddress 0xFF 2 = 2042 := by decide
/-- M10. -/
theorem test_load : (loadProgram [0x01, 0x02, 0x03] 14 State.reset).1.ram = [(14, 0x01), (15, 0x02)] ∧
    (loadProgram [0x01, 0x02, 0x03] 14 State.reset).2 = 1 := by decide
/-- M16. -/
theorem test_snapshot : (snapshot (loadProgram [0x02, 0x07] 0 State.reset).1).pc = 0 ∧
    (snapshot (loadProgram [0x02, 0x07] 0 State.reset).1).halted = false ∧
    (snapshot (loadProgram [0x02, 0x07] 0 State.reset).1).ram.take 3 = [0x02, 0x07, 0x00] := by decide

/-! ### The Clock (T4) -/

/-- T4: in Manual mode `tick()` fires nothing, `step()` is one micro-cycle of the registered core. -/
theorem test_clock :
    (after (clockStep (fun _ => true)
      { State.reset with clock := State.reset.clock.register .rising .coreStep }).outcome).map
        (fun t => (t.phase, t.cycles, t.clock.clkCycles, t.clock.level)) = some (.fetch1, 1, 1, .low) ∧
    (clockTick (fun _ => false) 5 State.reset).fired = false := by decide

/-! ### withFetchWord and decodeTableWord on the host's kind of question -/

theorem test_withFetchWord_word : (after (step (State.reset.withFetchWord 16 0x0201))).map (fun t => (t.phase, t.cycles)) =
    some (.execute 1, 1) := by decide
theorem test_withFetchWord_opcode : (after (step (State.reset.withFetchWord 8 0x02))).map (fun t => (t.pc, t.cycles)) =
    some (0x2, 5) := by decide

/-! ### Witnesses: the hypotheses of each obligation can be met together -/

theorem witness_DecodeOfEncodeIsTheInstruction : ∃ (sb : SigBit) (i : Instr) (bytes : List Byte),
    sb.wf = true ∧ i.wf = true ∧ encode sb i = some bytes ∧ bytes = [0x20#8, 0x22#8] :=
  ⟨{}, .aluOut { aIn := true, flagsIn := true }, _, by decide, by decide, rfl, by decide⟩

theorem witness_EncodeOfDecodeKeepsTheNamedBits : ∃ sb : SigBit,
    sb.wf = true ∧ ∀ s : Signal, sb.pos s ≠ 15 := ⟨{}, by decide, fun s => by cases s <;> decide⟩

theorem witness_BitWithoutASignalIsIgnored : ∀ g : Signal,
    (0x0008#16).getLsbD (SigBit.pos {} g).val = (0x8008#16).getLsbD (SigBit.pos {} g).val := fun g => by cases g <;> decide

theorem witness_StepRunsTheSelectedInstruction :
    (∃ s : State, s.phase = .halted) ∧ (∃ s : State, s.phase = .fetch0 ∧ s.grain = .microCycle) ∧
    (∃ s : State, s.phase = .fetch0 ∧ s.grain = .macroInstruction) ∧ (∃ s : State, s.phase = .fetch1) ∧
    ∃ s : State, s.phase = .execute 2 :=
  ⟨⟨{ State.reset with phase := .halted }, rfl⟩, ⟨State.reset, rfl, rfl⟩,
    ⟨{ State.reset with grain := .macroInstruction }, rfl, rfl⟩, ⟨{ State.reset with phase := .fetch1 }, rfl⟩, ⟨exe 2, rfl⟩⟩

theorem witness_PlacedWordIsTheNextInstruction :
    Memory.wf State.reset.ram = true ∧ Rom.wf State.reset.rom = true ∧ State.reset.cfg.sigbit.wf = true := by decide

theorem witness_HaltedAbsorbsEveryInstruction : ∃ s : State, s.phase = .halted := ⟨{ State.reset with phase := .halted }, rfl⟩

/-- Every clause of the transition table, the last Execute step among them. -/
theorem witness_StepFollowsTheTransitionTable :
    (∃ s t : State, s.grain = .microCycle ∧ Memory.wf s.ram = true ∧ step s = .next t ∧ s.phase = .halted) ∧
    (∃ s t : State, s.grain = .microCycle ∧ Memory.wf s.ram = true ∧ step s = .next t ∧ s.phase = .fetch0) ∧
    (∃ s t : State, s.grain = .microCycle ∧ Memory.wf s.ram = true ∧ step s = .next t ∧ s.phase = .fetch1) ∧
    (∃ s t : State, s.grain = .microCycle ∧ Memory.wf s.ram = true ∧ step s = .next t ∧ s.phase = .execute 0 ∧
      (currentSignals s 0).halt = true) ∧
    ∃ s t : State, s.grain = .microCycle ∧ Memory.wf s.ram = true ∧ step s = .next t ∧ s.phase = .execute 2 ∧
      (currentSignals s 2).halt = false ∧ (currentSignals s 2).sourceCount ≤ 1 :=
  ⟨⟨{ State.reset with phase := .halted }, _, rfl, rfl, rfl, rfl⟩, ⟨State.reset, _, rfl, rfl, rfl, rfl⟩,
    ⟨{ State.reset with phase := .fetch1 }, _, rfl, rfl, rfl, rfl⟩,
    ⟨atWord 0x4000, _, rfl, rfl, rfl, rfl, by decide⟩, ⟨exe 2, _, rfl, rfl, rfl, rfl, by decide, by decide⟩⟩

/-- A word that changes A, B, IR, MAR, PC, FLAGS, the bus and RAM at once, and a HALT word. -/
theorem witness_ExecuteChangesOnlyWhatASignalWrites :
    ((∃ t, step { atWord 0x2FE0 with a := 0xFF, b := 0x02 } = .next t) ∧
      ((after (step { atWord 0x2FE0 with a := 0xFF, b := 0x02 })).map
        (fun t => ((t.a, t.b, t.ir, t.mar), t.pc, t.flagC, t.bus, readByte t.ram 0)) =
          some ((0x01, 0x01, 0x01, 0x1), 0x1, true, 0x01, 0x01))) ∧
    ∃ s t : State, Memory.wf s.ram = true ∧ s.phase = .execute 0 ∧ step s = .next t ∧ (currentSignals s 0).halt = true :=
  ⟨⟨⟨_, rfl⟩, by decide⟩, ⟨atWord 0x4000, _, rfl, rfl, rfl, by decide⟩⟩

theorem witness_OnlyRamInChangesRam : ∃ s t : State, s.grain = .microCycle ∧ step s = .next t ∧ t.ram ≠ s.ram :=
  ⟨{ atWord 0x0088 with a := 0x09 }, _, rfl, rfl, by decide⟩

/-- ALU_OUT without FLAGS_IN; and each flag cleared by FLAGS_IN (A22). -/
theorem witness_FlagsAreStickyWithoutFlagsIn :
    (∃ s t : State, s.grain = .microCycle ∧ step s = .next t ∧
      ∀ k, s.phase = .execute k → (currentSignals s k).flagsIn = false ∨ (currentSignals s k).halt = true) ∧
    ∃ s t : State, s.grain = .microCycle ∧ step s = .next t ∧ s.flagC = true ∧ t.flagC = false ∧ s.flagZ = true ∧
      t.flagZ = false :=
  ⟨⟨{ atWord 0x0220 with flagC := true }, _, rfl, rfl, fun k hk => by cases hk; decide⟩,
    ⟨{ atWord 0x2220 with a := 0x01, b := 0x01, flagC := true, flagZ := true }, _, rfl, rfl, rfl, by decide, rfl, by decide⟩⟩

theorem witness_PcMovesOnlyByOne : ∃ s t : State, s.grain = .microCycle ∧ step s = .next t ∧ s.pc = 0xF ∧ t.pc = 0x0 :=
  ⟨{ State.reset with phase := .fetch1, pc := 0xF }, _, rfl, rfl, rfl, by decide⟩

theorem witness_StepNeverChangesRomParametersOrClock :
    (∃ s t : State, s.grain = .microCycle ∧ step s = .next t) ∧
    ∃ s t : State, s.grain = .macroInstruction ∧ step s = .next t :=
  ⟨⟨State.reset, _, rfl, rfl⟩, ⟨{ State.reset with grain := .macroInstruction }, _, rfl, rfl⟩⟩

theorem witness_EveryStepKeepsTheInvariant : ∃ s t : State, Inv s ∧ step s = .next t :=
  ⟨State.reset, _, ⟨rfl, rfl, rfl⟩, rfl⟩

/-- TESTROM without BAD is well formed: REFROM, with its six opcodes. -/
theorem witness_WellFormedRomNeverStops : ∃ s : State, SafeState s ∧ s.rom = Config.refrom := by
  refine ⟨{ State.reset with rom := Config.refrom }, ⟨?_, rfl⟩, rfl⟩
  have h : ∀ (i : Fin 16) (k : Fin 3),
      (decodeSignals {} (romRead Config.refrom (romAddress (BitVec.ofNat 8 i.val) k))).wf = true := by decide
  intro op k hop
  have h' := h ⟨op.toNat, hop⟩ k
  rw [show BitVec.ofNat 8 (Fin.mk op.toNat hop).val = op by simp] at h'
  exact h'

/-- A word that faults, a word that is refused under the named alternative, and the word that meets both (log 18): refused
under both parameters, faulting where FLAGS_IN may latch. -/
theorem witness_StepStopsExactlyWhenTheSpecSays :
    (∃ s e, s.grain = .microCycle ∧ step s = .fault e) ∧ (∃ s e, s.grain = .microCycle ∧ step s = .refused e) ∧
    step { atWord 0x2018 with cfg := { contention := .fault, flagsWithoutAluOut := .refuse } } =
      .refused .flagsInWithoutAluOut ∧
    step (atWord 0x2018) = .fault (.busContention 0x00 0 [.aOut, .bOut]) :=
  ⟨⟨atWord 0x0018, _, rfl, rfl⟩, ⟨{ atWord 0x2000 with cfg := { flagsWithoutAluOut := .refuse } }, _, rfl, rfl⟩, rfl, rfl⟩

theorem witness_Fetch0PutsPcOnBusAndMar : ∃ s : State, s.phase = .fetch0 := ⟨State.reset, rfl⟩

theorem witness_Fetch1LatchesTheOpcode : ∃ s : State, s.phase = .fetch1 := ⟨{ State.reset with phase := .fetch1 }, rfl⟩

theorem witness_TwoStepsFromFetch0FetchTheOpcode : ∃ s : State, s.phase = .fetch0 ∧ s.grain = .microCycle :=
  ⟨State.reset, rfl, rfl⟩

/-- A word with one source and a word with none, at the last Execute step. -/
theorem witness_ControlWordActsAsItsSet :
    (Ready (decodeSignals {} 0x2220) 2 (exe 2) ∧ (decodeSignals {} 0x2220).sourceCount = 1) ∧
    Ready (decodeSignals {} 0x0200) 2 (exe 2) ∧ (decodeSignals {} 0x0200).sourceCount = 0 :=
  ⟨⟨⟨rfl, by decide, .inr (.inr rfl), rfl⟩, by decide⟩, ⟨rfl, by decide, .inr (.inr rfl), rfl⟩, by decide⟩

/-- The other signals of a word whose one source names it: shared by the statements about the sources and the sinks. -/
theorem witness_others : Ready { aIn := true, ramIn := true, pcInc := true } 2 (exe 2) ∧
    SignalSet.sourceCount { aIn := true, ramIn := true, pcInc := true } = 0 :=
  ⟨⟨rfl, rfl, .inl rfl, rfl⟩, by decide⟩

theorem witness_RegisterSourceDrivesTheBus : ∃ (o : SignalSet) (s : State) (k : Fin 3),
    Ready o k s ∧ o.sourceCount = 0 := ⟨_, _, _, witness_others⟩

theorem witness_RamSourceDrivesTheByteAtOldMar : ∃ (o : SignalSet) (s : State) (k : Fin 3),
    Ready o k s ∧ o.sourceCount = 0 := ⟨_, _, _, witness_others⟩

theorem witness_PcAndIrSourcesDriveTheBus : ∃ (o : SignalSet) (s : State) (k : Fin 3),
    Ready o k s ∧ o.sourceCount = 0 := ⟨_, _, _, witness_others⟩

theorem witness_AluSourceDrivesTheResult : ∃ (o : SignalSet) (s : State) (k : Fin 3), s.phase = .execute k ∧
    Memory.wf s.ram = true ∧ o.halt = false ∧ o.sourceCount = 0 ∧ o.flagsIn = true ∧ o.aluSub = true :=
  ⟨{ flagsIn := true, aluSub := true }, exe 0, 0, rfl, rfl, rfl, by decide, rfl, rfl⟩

/-- A word with one source and several sinks, one without a source, and one with two under the alternative. -/
theorem witness_EverySinkLatchesTheBusValue :
    (Ready { aOut := true, bIn := true, marIn := true } 0 (exe 0) ∧
      SignalSet.sourceCount { aOut := true, bIn := true, marIn := true } ≤ 1) ∧
    ∃ s : State, Ready { aOut := true, bOut := true, bIn := true } 0 s ∧ s.cfg.contention = .anyAssertedSource :=
  ⟨⟨⟨rfl, rfl, .inl rfl, rfl⟩, by decide⟩,
    ⟨{ exe 0 with cfg := { contention := .anyAssertedSource } }, ⟨rfl, rfl, .inl rfl, rfl⟩, rfl⟩⟩

theorem witness_SinkWithoutSourceLatchesTheKeptBus : ∃ (o : SignalSet) (s : State) (k : Fin 3),
    Ready o k s ∧ o.sourceCount = 0 := ⟨_, _, _, witness_others⟩

/-- A word without a source, a word with one, and one with several under the alternative. -/
theorem witness_PcIncAddsOneWhateverTheBusDoes :
    (∃ (o : SignalSet) (s : State) (k : Fin 3), Ready o k s ∧ o.sourceCount = 0) ∧
    (Ready { pcOut := true, marIn := true } 2 (exe 2) ∧ SignalSet.sourceCount { pcOut := true, marIn := true } = 1) ∧
    ∃ s : State, Ready { pcOut := true, aOut := true } 0 s ∧ s.cfg.contention = .anyAssertedSource :=
  ⟨⟨_, _, _, witness_others⟩, ⟨⟨rfl, rfl, .inl rfl, rfl⟩, by decide⟩,
    ⟨{ exe 0 with cfg := { contention := .anyAssertedSource } }, ⟨rfl, rfl, .inl rfl, rfl⟩, rfl⟩⟩

/-- Each clause: no consumer of the ALU; at the head of a word; with ALU_OUT. -/
theorem witness_AluSubOnlySelectsSubtraction :
    (∃ (o : SignalSet) (s : State), s.phase = .execute 0 ∧ o.aluOut = false ∧ o.flagsIn = false ∧ o.aOut = true) ∧
    (∃ (o : SignalSet) (s : State), s.phase = .execute 0 ∧ Ready o 0 s ∧ o.sourceCount = 0 ∧ o.aluSub = true) :=
  ⟨⟨{ aOut := true }, exe 0, rfl, rfl, rfl, rfl⟩,
    ⟨{ aluSub := true }, exe 0, rfl, ⟨rfl, rfl, .inl rfl, rfl⟩, by decide, rfl⟩⟩

/-- One source, and several under the alternative. -/
theorem witness_FlagsInLatchesTheAluOfTheSameWord :
    (∃ (o : SignalSet) (s : State) (k : Fin 3), Ready o k s ∧ o.sourceCount ≤ 1 ∧ o.aluOut = true) ∧
    ∃ s : State, Ready { aOut := true, aluOut := true } 0 s ∧ s.cfg.contention = .anyAssertedSource :=
  ⟨⟨{ aluOut := true }, exe 0, 0, ⟨rfl, rfl, .inl rfl, rfl⟩, by decide, rfl⟩,
    ⟨{ exe 0 with cfg := { contention := .anyAssertedSource } }, ⟨rfl, rfl, .inl rfl, rfl⟩, rfl⟩⟩

/-- Both values of the parameter. -/
theorem witness_FlagsInWithoutAluOutFollowsTheParameter :
    ∃ s u : State, s.phase = .execute 0 ∧ u.phase = .execute 0 ∧ Memory.wf s.ram = true ∧ Memory.wf u.ram = true ∧
      SignalSet.halt {} = false ∧ SignalSet.aluOut {} = false ∧ SignalSet.sourceCount {} = 0 ∧
      s.cfg.flagsWithoutAluOut = .latch ∧ u.cfg.flagsWithoutAluOut = .refuse :=
  ⟨exe 0, { exe 0 with cfg := { flagsWithoutAluOut := .refuse } }, rfl, rfl, rfl, rfl, rfl, rfl, by decide, rfl, rfl⟩

theorem witness_HaltAppliesNothingElse : ∃ (s : State) (k : Fin 3), s.phase = .execute k := ⟨exe 2, 2, rfl⟩

theorem witness_NopWordOnlyAdvances : ∃ (s : State) (k : Fin 3), s.phase = .execute k ∧ k = 2 := ⟨exe 2, 2, rfl, rfl⟩

/-- Both values of the parameter. -/
theorem witness_TwoSourcesFollowTheContentionParameter :
    (∃ s : State, Ready { aOut := true, bOut := true } 0 s ∧ s.cfg.contention = .fault) ∧
    (∃ s : State, Ready { aOut := true, bOut := true } 0 s ∧ s.cfg.contention = .anyAssertedSource) ∧
    2 ≤ SignalSet.sourceCount { aOut := true, bOut := true } :=
  ⟨⟨exe 0, ⟨rfl, rfl, .inl rfl, rfl⟩, rfl⟩,
    ⟨{ exe 0 with cfg := { contention := .anyAssertedSource } }, ⟨rfl, rfl, .inl rfl, rfl⟩, rfl⟩, by decide⟩

/-- Each phase. -/
theorem witness_WrongPhaseIsRefused :
    (∃ s : State, s.phase = .fetch0) ∧ (∃ s : State, s.phase = .fetch1) ∧ ∃ s : State, s.phase = .execute 2 :=
  ⟨⟨State.reset, rfl⟩, ⟨{ State.reset with phase := .fetch1 }, rfl⟩, ⟨exe 2, rfl⟩⟩

/-- Steps 0 and 1. -/
theorem witness_IrInRedirectsTheRestOfTheInstruction : ∀ k : Fin 3, k ≠ 2 → ∃ s t : State, s.phase = .execute k ∧
    (currentSignals s k).irIn = true ∧ (currentSignals s k).halt = false ∧ step s = .next t := by
  intro k hk
  have h : k = 0 ∨ k = 1 := by omega
  rcases h with rfl | rfl
  · exact ⟨atWord 0x0101, _, rfl, by decide, by decide, rfl⟩
  · exact ⟨{ exe 1 with rom := [(1, 0x0101)] }, _, rfl, by decide, by decide, rfl⟩

theorem witness_MacroInstructionIsFiveMicroCycles :
    (∃ s : State, s.phase = .fetch0 ∧ s.grain = .microCycle) ∧ ∃ (t : State) (k : Fin 3), t.phase = .execute k :=
  ⟨⟨State.reset, rfl, rfl⟩, ⟨exe 2, 2, rfl⟩⟩

/-- The two ends of the range, 0x10 and 0xFF. -/
theorem witness_OutOfRangeOpcodesAreNops : (∃ s : State, s.phase = .fetch0) ∧
    (∃ i : Instr, i.opcode = some 0x10#8) ∧ ∃ i : Instr, i.opcode = some 0xFF#8 :=
  ⟨⟨State.reset, rfl⟩, ⟨.nopHigh4 0x0, by decide⟩, ⟨.nopHigh7 0x7F, by decide⟩⟩

/-- TESTROM holds every in-range opcode's row, so one state meets the hypotheses of every macro-instruction. -/
theorem holdsMicrocode_testrom (pc : Nibble) (ram : Memory) (i : Fin 16) :
    (boot pc ram).phase = .fetch0 ∧ HoldsMicrocode (BitVec.ofNat 8 i.val) (boot pc ram) :=
  ⟨rfl, test_testrom_holds_the_microcode i⟩

theorem witness_ZeroMicrocodeOpcodesAreNops : ∃ s : State, s.phase = .fetch0 ∧ HoldsMicrocode 0x00#8 s ∧
    HoldsMicrocode 0x0E#8 s :=
  ⟨boot 0 [], rfl, test_testrom_holds_the_microcode 0, test_testrom_holds_the_microcode 14⟩

theorem witness_HltHaltsAfterThreeMicroCycles : ∃ s : State, s.phase = .fetch0 ∧ HoldsMicrocode 0x01#8 s :=
  ⟨boot 0 [], holdsMicrocode_testrom 0 [] 1⟩

theorem witness_LoadsTakeTheOperandByteOrTheByteItNames : ∃ s : State, s.phase = .fetch0 ∧ HoldsMicrocode 0x02#8 s ∧
    HoldsMicrocode 0x03#8 s ∧ HoldsMicrocode 0x04#8 s :=
  ⟨boot 0xF [], rfl, test_testrom_holds_the_microcode 2, test_testrom_holds_the_microcode 3,
    test_testrom_holds_the_microcode 4⟩

theorem witness_StaStoresAAtTheOperandAddress : ∃ s : State, s.phase = .fetch0 ∧ Memory.wf s.ram = true ∧
    HoldsMicrocode 0x06#8 s := ⟨boot 0 [], rfl, rfl, test_testrom_holds_the_microcode 6⟩

theorem witness_AddAndSubLatchResultAndFlags : ∃ s : State, s.phase = .fetch0 ∧ HoldsMicrocode 0x08#8 s ∧
    HoldsMicrocode 0x09#8 s := ⟨boot 0 [], rfl, test_testrom_holds_the_microcode 8, test_testrom_holds_the_microcode 9⟩

theorem witness_OutPutsAOnTheBus : ∃ s : State, s.phase = .fetch0 ∧ HoldsMicrocode 0x0F#8 s :=
  ⟨boot 0 [], holdsMicrocode_testrom 0 [] 15⟩

/-- Both values of the parameter. -/
theorem witness_CmpChangesOnlyTheFlags :
    (∃ s : State, s.phase = .fetch0 ∧ HoldsMicrocode 0x0A#8 s ∧ s.cfg.flagsWithoutAluOut = .latch) ∧
    ∃ s : State, s.phase = .fetch0 ∧ HoldsMicrocode 0x0A#8 s ∧ s.cfg.flagsWithoutAluOut = .refuse :=
  ⟨⟨boot 0 [], rfl, test_testrom_holds_the_microcode 10, rfl⟩,
    ⟨{ boot 0 [] with cfg := { flagsWithoutAluOut := .refuse } }, rfl, test_testrom_holds_the_microcode 10, rfl⟩⟩

/-- Both values of the parameter. -/
theorem witness_BadContendsForTheBus :
    (∃ s : State, s.phase = .fetch0 ∧ HoldsMicrocode 0x0B#8 s ∧ s.cfg.contention = .fault) ∧
    ∃ s : State, s.phase = .fetch0 ∧ HoldsMicrocode 0x0B#8 s ∧ s.cfg.contention = .anyAssertedSource :=
  ⟨⟨boot 0 [], rfl, test_testrom_holds_the_microcode 11, rfl⟩,
    ⟨{ boot 0 [] with cfg := { contention := .anyAssertedSource } }, rfl, test_testrom_holds_the_microcode 11, rfl⟩⟩

theorem witness_MemWriteSetsOneByteOfACanonicalRam : Memory.wf [(0, 0x01), (15, 0xFF)] = true := by decide

/-- The boundary opcodes of the range. -/
theorem witness_RomAddressIsNotTruncated : 16 ≤ (0x10#8).toNat ∧ (0x0F#8).toNat < 16 := by decide

theorem witness_ProgramLoadStoresOrDropsEachByte : Memory.wf State.reset.ram = true := by decide

theorem witness_RomImageIsLittleEndianPairs : (List.replicate 256 (0x00#8)).length = 256 ∧ ([] : List Byte).length ≠ 256 :=
  ⟨List.length_replicate, by decide⟩

theorem witness_ManualClockStepIsOneMicroCycle : ∃ s : State, s.clock.mode = .manual ∧
    s.clock.rising = [7].map Callback.observer ++ [Callback.coreStep] ++ [8].map Callback.observer ∧
    s.clock.falling = [9].map Callback.observer ∧ ∃ t, (clockStep (fun _ => true) s).outcome = .next t :=
  ⟨{ State.reset with clock := { Clock.initial .manual 1 with
      rising := [.observer 7, .coreStep, .observer 8], falling := [.observer 9] } }, rfl, rfl, rfl, _, rfl⟩

/-- The reset state with a Clock running in Continuous mode, period 2, at a level, with the core and two observers. -/
def ticking (l : Level) : State :=
  { State.reset with clock := { Clock.initial .continuous 2 with
      running := true, level := l, rising := [.observer 3, .coreStep], falling := [.observer 4] } }

/-- Exactly at half a period it fires, whatever the level; not in Manual mode, not while stopped, not before. -/
theorem tickFires_ticking (l : Level) (f : Nat → Bool) : (clockTick f 1 (ticking l)).fired = true := by
  have h : (ticking l).clock.tickFires 1 = true := by norm_num [Clock.tickFires, ticking, Clock.initial]
  cases l <;> simp only [clockTick, h, if_true] <;> rfl

theorem witness_TickFiresTheDueEdge :
    (∀ l, (clockTick (fun _ => false) 1 (ticking l)).fired = true ∧ (ticking l).clock.level = l) ∧
    (ticking .low).clock.rising.count .coreStep = 1 ∧
    (clockTick (fun _ => false) 1 State.reset).fired = false ∧
    (clockTick (fun _ => false) 1 { ticking .low with
      clock := (ticking .low).clock.stop }).fired = false ∧
    (clockTick (fun _ => false) 0 (ticking .low)).fired = false := by
  refine ⟨fun l => ⟨tickFires_ticking l _, rfl⟩, by decide, rfl, rfl, ?_⟩
  have h : (ticking .low).clock.tickFires 0 = false := by norm_num [Clock.tickFires, ticking, Clock.initial]
  simp [clockTick, h]

/-- R226: the core registered on the rising edge runs its micro-cycle by `tick()`, here FETCH0 at PC 0, and the level is
high after it. -/
theorem test_tick_runs_the_core :
    (after (clockTick (fun _ => true) 1 (ticking .low)).outcome).map
      (fun t => (t.phase, t.cycles, t.clock.level, t.clock.clkCycles)) = some (.fetch1, 1, .high, 0) := by
  have h : (ticking .low).clock.tickFires 1 = true := by norm_num [Clock.tickFires, ticking, Clock.initial]
  simp only [clockTick, h, if_true]
  rfl

/-- Manual mode with a failing observer on each edge, and a `tick()` that fires each edge past a failing observer. -/
theorem witness_FailingObserversChangeNothing :
    (∃ (f : Nat → Bool) (s : State), s.clock.mode = .manual ∧ f 3 = true ∧ f 4 = true ∧
      Callback.observer 3 ∈ s.clock.rising ∧ Callback.observer 4 ∈ s.clock.falling) ∧
    ∀ l, (clockTick (fun _ => true) 1 (ticking l)).fired = true ∧ (ticking l).clock.level = l ∧
      Callback.observer 3 ∈ (ticking l).clock.rising ∧ Callback.observer 4 ∈ (ticking l).clock.falling :=
  ⟨⟨fun _ => true, { ticking .low with clock := { (ticking .low).clock with mode := .manual } }, rfl, rfl, rfl,
      by decide, by decide⟩,
    fun l => ⟨tickFires_ticking l _, rfl, by cases l <;> decide, by cases l <;> decide⟩⟩

end Sys2Proof.Tests
end

section
/-! ### Reset: the core right after construction (10_state.md R36) -/

namespace Sys2Proof.Machine

@[simp] theorem State.construct_phase (rom : Rom) (cfg : Config) (v : ResetValues) :
    (State.construct rom cfg v).phase = .fetch0 := rfl

@[simp] theorem State.construct_pc (rom : Rom) (cfg : Config) (v : ResetValues) :
    (State.construct rom cfg v).pc = 0#4 := rfl

/-- R36's "which also means the core is not halted": Fetch0 and Halted are different states of the sequencer. -/
theorem State.construct_phase_ne_halted (rom : Rom) (cfg : Config) (v : ResetValues) :
    (State.construct rom cfg v).phase ≠ .halted := by
  rw [State.construct_phase]
  exact Phase.noConfusion

theorem State.reset_eq_construct : State.reset = State.construct [] {} {} := rfl

/-- Settles O1: the launch values and the open parameters reach neither the phase nor PC, and reset is the construction
with the default ones. -/
theorem constructedCoreStartsAtFetch0WithPcZero : Obligations.ConstructedCoreStartsAtFetch0WithPcZero := by
  unfold Obligations.ConstructedCoreStartsAtFetch0WithPcZero
  constructor
  · intro rom cfg v
    exact ⟨State.construct_phase rom cfg v, State.construct_phase_ne_halted rom cfg v, State.construct_pc rom cfg v⟩
  · exact ⟨[], {}, {}, State.reset_eq_construct⟩

end Sys2Proof.Machine
end

section
/-! ### Program load (20_memory.md R58) -/

namespace Sys2Proof.Machine

@[simp] theorem loadBytes_nil (off : Nat) (m : Memory) : loadBytes [] off m = (m, 0) := rfl

/-- A byte whose address is 0..15 is one store of MemWrite (R54) at that address. -/
theorem loadBytes_cons_of_lt {off : Nat} (v : Byte) (rest : List Byte) (m : Memory) (h : off < 16) :
    loadBytes (v :: rest) off m = loadBytes rest (off + 1) (writeByte m (BitVec.ofNat 4 off) v) := by
  have haddr : (BitVec.ofNat 4 off).toNat = off := Nat.mod_eq_of_lt h
  rw [writeByte, haddr, loadBytes, if_pos h]

/-- From address 16 on, every byte is dropped and counted: none wraps around to address 0. -/
theorem loadBytes_of_ge (bytes : List Byte) {off : Nat} (m : Memory) (h : 16 ≤ off) :
    loadBytes bytes off m = (m, bytes.length) := by
  induction bytes generalizing off with
  | nil => rfl
  | cons v rest ih => rw [loadBytes, if_neg (by omega), ih (by omega), List.length_cons]

theorem loadBytes_wf (bytes : List Byte) (off : Nat) {m : Memory} (hm : Memory.wf m = true) :
    Memory.wf (loadBytes bytes off m).1 = true := by
  induction bytes generalizing off m with
  | nil => exact hm
  | cons v rest ih =>
    by_cases hoff : off < 16
    · rw [loadBytes_cons_of_lt v rest m hoff]
      exact ih (off + 1) (writeByte_wf hm _ v)
    · rwa [loadBytes_of_ge _ m (by omega)]

/-- The bytes dropped are those that do not fit into the `16 - off` addresses left. -/
theorem loadBytes_dropped (bytes : List Byte) (off : Nat) (m : Memory) :
    (loadBytes bytes off m).2 = bytes.length - (16 - off) := by
  induction bytes generalizing off m with
  | nil => simp
  | cons v rest ih =>
    by_cases hoff : off < 16
    · rw [loadBytes_cons_of_lt v rest m hoff, ih, List.length_cons]
      omega
    · rw [loadBytes_of_ge _ m (by omega)]
      omega

/-- What a RAM byte reads after the load. The byte at `off` is stored first, and the rest of the load, all at
addresses above `off`, leaves it alone. -/
theorem readByte_loadBytes (bytes : List Byte) (off : Nat) {m : Memory} (hm : Memory.wf m = true) (x : Nibble) :
    readByte (loadBytes bytes off m).1 x =
      if off ≤ x.toNat ∧ x.toNat < off + bytes.length then bytes.getD (x.toNat - off) 0#8 else readByte m x := by
  have hx := x.isLt
  induction bytes generalizing off m with
  | nil => rw [loadBytes_nil, List.length_nil, if_neg (by omega)]
  | cons v rest ih =>
    by_cases hoff : off < 16
    · have hstored : x = BitVec.ofNat 4 off ↔ x.toNat = off := by bv_omega
      rw [loadBytes_cons_of_lt v rest m hoff, ih (off + 1) (writeByte_wf hm _ v), readByte_writeByte hm, List.length_cons]
      rcases Nat.lt_trichotomy x.toNat off with hlt | heq | hgt
      · rw [if_neg (by omega), if_neg (mt hstored.1 (by omega)), if_neg (by omega)]
      · rw [if_neg (by omega), if_pos (hstored.2 heq), if_pos (by omega), heq, Nat.sub_self, List.getD_cons_zero]
      · have hnext : x.toNat - off = x.toNat - (off + 1) + 1 := by omega
        have hcovered : (off ≤ x.toNat ∧ x.toNat < off + (rest.length + 1)) ↔
            (off + 1 ≤ x.toNat ∧ x.toNat < off + 1 + rest.length) := by omega
        rw [if_neg (mt hstored.1 (by omega)), hnext, List.getD_cons_succ]
        simp only [hcovered]
    · rw [loadBytes_of_ge _ m (by omega), if_neg (by omega)]

/-- Settles O55: a load is the loop `loadBytes` on RAM alone, whose memory, count and canonical form are the laws above. -/
theorem programLoadStoresOrDropsEachByte : Obligations.ProgramLoadStoresOrDropsEachByte := by
  unfold Obligations.ProgramLoadStoresOrDropsEachByte
  intro bytes off s hram
  exact ⟨readByte_loadBytes bytes off hram, loadBytes_dropped bytes off s.ram, rfl, loadBytes_wf bytes off hram⟩

end Sys2Proof.Machine
end

section
/-! ### Control words: the bits the decoder reads (30_encoding.md R84) and the NOP word (R87) -/

namespace Sys2Proof

/-- The decoder reads no bit but those SIGBIT names. -/
theorem decodeSignals_congr {sb : SigBit} {cw cw' : ControlWord}
    (h : ∀ g : Signal, cw.getLsbD (sb.pos g).val = cw'.getLsbD (sb.pos g).val) :
    decodeSignals sb cw = decodeSignals sb cw' :=
  SignalSet.ext_get fun g => by rw [decodeSignals_get, decodeSignals_get, h g]

theorem SignalSet.eq_empty_iff (o : SignalSet) : o = {} ↔ ∀ g, o.get g = false := by
  have hempty : ∀ g, SignalSet.get {} g = false := fun g => by cases g <;> rfl
  constructor
  · rintro rfl
    exact hempty
  · intro h
    exact SignalSet.ext_get fun g => (h g).trans (hempty g).symm

@[simp] theorem Instr.ofSignals_empty : Instr.ofSignals {} = .nopWord := rfl

theorem Signal.mem_ranked (g : Signal) : g ∈ Signal.ranked := by
  cases g <;> decide

/-- A word that asserts a signal has a first one in the order `Signal.ranked` (log 11). -/
theorem SignalSet.exists_first {o : SignalSet} (h : o ≠ {}) : ∃ g, o.get g = true ∧ (o.drop g).startsAfter g = true := by
  have hsome : ∃ g, o.get g = true := by
    by_contra hnone
    exact h (o.eq_empty_iff.2 fun g => Bool.eq_false_iff.2 fun hg => hnone ⟨g, hg⟩)
  obtain ⟨x, hx⟩ := hsome
  obtain ⟨g, hfind⟩ := Option.isSome_iff_exists.1 (List.find?_isSome.2 ⟨x, Signal.mem_ranked x, hx⟩)
  obtain ⟨hg, before, rest, hranked, hbefore⟩ := List.find?_eq_some_iff_append.1 hfind
  have hearlier : ∀ t ∈ Signal.ranked.takeWhile (· != g), t ∈ before := by
    have hne : ∀ t ∈ before, (t != g) = true := fun t ht => bne_iff_ne.2 fun e => by simpa [e, hg] using hbefore t ht
    simp [hranked, List.takeWhile_append_of_pos hne]
  have hdropped : ∀ t ∈ before, (o.drop g).get t = false := fun t ht => by
    simpa [SignalSet.get_drop] using fun _ => hbefore t ht
  refine ⟨g, hg, ?_⟩
  simp only [SignalSet.startsAfter, Bool.and_eq_true, List.all_eq_true, Bool.not_eq_true']
  exact ⟨by simp [SignalSet.get_drop], fun t ht => hdropped t (hearlier t ht)⟩

/-- Every other set is named by its first signal, so only the empty one is named NOP_WORD. -/
theorem Instr.ofSignals_eq_nopWord_iff (o : SignalSet) : Instr.ofSignals o = .nopWord ↔ o = {} := by
  constructor
  · intro h
    by_contra hne
    obtain ⟨g, hg, hfirst⟩ := SignalSet.exists_first hne
    have hname := Laws.NamesItsWord.ofSignals_headedBy hfirst
    rw [SignalSet.assert_drop hg, h] at hname
    cases g <;> cases hname
  · rintro rfl
    exact Instr.ofSignals_empty

theorem decodeControlWord_eq_nopWord_iff (sb : SigBit) (cw : ControlWord) :
    decodeControlWord sb cw = .nopWord ↔ ∀ g : Signal, cw.getLsbD (sb.pos g).val = false := by
  rw [decodeControlWord, Instr.ofSignals_eq_nopWord_iff, SignalSet.eq_empty_iff]
  simp only [decodeSignals_get]

/-- The default SIGBIT names every bit but bit 15 (D1). -/
theorem SigBit.exists_pos_default : ∀ p : Fin 16, p ≠ 15 → ∃ g ∈ Signal.all, SigBit.pos {} g = p := by decide

/-- A word with no bit set below bit 15 is fixed by its bit 15. -/
theorem ControlWord.eq_of_low_bits_clear {cw : ControlWord} (h : ∀ p : Fin 16, p ≠ 15 → cw.getLsbD p.val = false) :
    cw = if cw.getLsbD 15 then 0x8000#16 else 0x0000#16 := by
  apply BitVec.eq_of_getLsbD_eq
  intro i hi
  by_cases h15 : i = 15
  · subst h15
    cases cw.getLsbD 15 <;> rfl
  · have hne : (⟨i, hi⟩ : Fin 16) ≠ 15 := fun e => h15 (congrArg Fin.val e)
    have hbit : (0x8000#16).getLsbD i = false := (oneHot_bit 15 ⟨i, hi⟩).trans (decide_eq_false hne.symm)
    rw [h ⟨i, hi⟩ hne]
    split
    · exact hbit.symm
    · exact BitVec.getLsbD_zero.symm

theorem decodeControlWord_default_eq_nopWord_iff (cw : ControlWord) :
    decodeControlWord {} cw = .nopWord ↔ cw = 0x0000#16 ∨ cw = 0x8000#16 := by
  constructor
  · intro h
    have hlow : ∀ p : Fin 16, p ≠ 15 → cw.getLsbD p.val = false := by
      intro p hp
      obtain ⟨g, -, rfl⟩ := SigBit.exists_pos_default p hp
      exact (decodeControlWord_eq_nopWord_iff {} cw).1 h g
    have hcw := ControlWord.eq_of_low_bits_clear hlow
    split at hcw
    · exact .inr hcw
    · exact .inl hcw
  · rintro (rfl | rfl) <;> rfl

end Sys2Proof

namespace Sys2Proof.Machine

/-- Advance (41_sequencer.md R127) as one record update. -/
theorem advance_eq (k : Fin 3) (s : State) :
    advance k s = { s with
      phase := if k = 2 then .fetch0 else .execute (k + 1)
      instructions := if k = 2 then s.instructions + 1 else s.instructions } := by
  unfold advance
  split <;> rfl

/-- With no signal asserted there is nothing to refuse, no source contends, and every destination and the bus keep their
value (42_signal_execution.md R142). -/
theorem applySignals_noSignal (k : Fin 3) (s : State) : applySignals {} k s = .next s := rfl

theorem microStep_noSignal {s : State} {k : Fin 3} (h : s.phase = .execute k) :
    microStep {} s = .next (advance k (countCycle s)) := by
  simp only [microStep, h, executeSet, applySignals_noSignal, andThen_next, Bool.false_eq_true, if_false]

theorem exec_nopWord {s : State} {k : Fin 3} (h : s.phase = .execute k) :
    exec .nopWord s = .next (advance k (countCycle s)) := by
  rw [← Instr.ofSignals_empty, exec_ofSignals, microStep_noSignal h]

/-- Settles O37: the NOP word is the micro-step of the empty set, which only advances; a word decodes to it exactly when
its set is empty, and the default SIGBIT leaves only bit 15 free. -/
theorem nopWordOnlyAdvances : Obligations.NopWordOnlyAdvances := by
  unfold Obligations.NopWordOnlyAdvances
  refine ⟨?_, decodeControlWord_eq_nopWord_iff, decodeControlWord_default_eq_nopWord_iff⟩
  intro s k h
  rw [exec_nopWord h, advance_eq]
  rfl

/-- Settles O7: the two words decode to one signal set, and so to one instruction. -/
theorem bitWithoutASignalIsIgnored : Obligations.BitWithoutASignalIsIgnored := by
  unfold Obligations.BitWithoutASignalIsIgnored
  intro sb cw cw' s h
  rw [exec_decodeControlWord, exec_decodeControlWord, decodeSignals_congr h]

end Sys2Proof.Machine
end

section
/-! ### Decoding a control word (40_control_word_decode.md R111) -/

namespace Sys2Proof

/-- Settles O3: the bit test is `decodeSignals_get`, for every SIGBIT; the rule's two examples are closed words, decoded by
evaluation. -/
theorem decodeIsABitTestPerSignal : Obligations.DecodeIsABitTestPerSignal := by
  unfold Obligations.DecodeIsABitTestPerSignal
  refine ⟨decodeSignals_get, ?ramOut_aIn_pcInc, ?bit15_names_no_signal⟩
  case ramOut_aIn_pcInc => decide
  case bit15_names_no_signal => decide

end Sys2Proof
end

section
/-! ### The fetch micro-operations (41_sequencer.md R123, R130) -/

namespace Sys2Proof.Machine

/-- In its own phase FETCH1 is DoFetch1 of the byte at MAR, after the cycle is counted. -/
theorem exec_fetch1 {s : State} (h : s.phase = .fetch1) :
    exec .fetch1 s = .next (doFetch1 (readByte s.ram s.mar) (countCycle s)) := by
  simp only [exec, execFetch1, h]

/-- DoFetch0 leaves the old PC in MAR and RAM alone, so DoFetch1 reads the opcode at the old PC. -/
theorem edge_doFetch0 (s : State) :
    edge (doFetch0 (countCycle s)) = .next (fetched (readByte s.ram s.pc) s) := by
  have hread : readByte (doFetch0 (countCycle s)).ram (doFetch0 (countCycle s)).mar = readByte s.ram s.pc := by simp
  rw [edge_fetch1 (doFetch0_phase _), hread, fetched]

theorem steps_two_of_fetch0 {s : State} (h : s.phase = .fetch0) (hg : s.grain = .microCycle) :
    steps 2 s = .next (fetched (readByte s.ram s.pc) s) := by
  have hg' : (doFetch0 (countCycle s)).grain = .microCycle := by rw [doFetch0_grain, countCycle_grain, hg]
  rw [steps_succ_edge 1 hg, edge_fetch0 h, andThen_next, steps_succ_edge 0 hg', edge_doFetch0, andThen_next, steps]

/-- Settles O23: DoFetch1 and the cycle count, as one record update. -/
theorem fetch1LatchesTheOpcode : Obligations.Fetch1LatchesTheOpcode := by
  unfold Obligations.Fetch1LatchesTheOpcode
  intro s h
  rw [exec_fetch1 h, doFetch1, countCycle]

/-- Settles O24: two micro-cycles from Fetch0 end in `fetched` of the byte at the old PC, which `fetched_eq` writes out. -/
theorem twoStepsFromFetch0FetchTheOpcode : Obligations.TwoStepsFromFetch0FetchTheOpcode := by
  unfold Obligations.TwoStepsFromFetch0FetchTheOpcode
  intro s h hg
  refine ⟨fetched (readByte s.ram s.pc) s, steps_two_of_fetch0 h hg, ?_⟩
  simp [fetched_eq]

end Sys2Proof.Machine
end

section
/-! ### The ALU and the flags (43_alu_flags.md R171, R176, R179) -/

namespace Sys2Proof.Machine

theorem nextFlagC_of_flagsIn {o : SignalSet} (s : State) (h : o.flagsIn = true) :
    nextFlagC o s = aluCarry o.aluSub s.a s.b := by
  rw [nextFlagC, if_pos h]

theorem nextFlagZ_of_flagsIn {o : SignalSet} (s : State) (h : o.flagsIn = true) :
    nextFlagZ o s = aluZero o.aluSub s.a s.b := by
  rw [nextFlagZ, if_pos h]

theorem nextFlagC_of_no_flagsIn {o : SignalSet} (s : State) (h : o.flagsIn = false) : nextFlagC o s = s.flagC := by
  simp [nextFlagC, h]

theorem nextFlagZ_of_no_flagsIn {o : SignalSet} (s : State) (h : o.flagsIn = false) : nextFlagZ o s = s.flagZ := by
  simp [nextFlagZ, h]

/-- All an edge can do to the flags: keep both, or latch the ALU's outputs of the old A and B under FLAGS_IN without HALT. -/
theorem edge_flags_cases {s t : State} (h : edge s = .next t) :
    (t.flagC = s.flagC ∧ t.flagZ = s.flagZ) ∨
    ∃ k, s.phase = .execute k ∧ (currentSignals s k).flagsIn = true ∧ (currentSignals s k).halt = false ∧
      t.flagC = aluCarry (currentSignals s k).aluSub s.a s.b ∧
      t.flagZ = aluZero (currentSignals s k).aluSub s.a s.b := by
  rcases edge_cases h with ⟨-, rfl⟩ | ⟨-, rfl⟩ | ⟨-, rfl⟩ | ⟨k, hk, ⟨-, rfl⟩ | ⟨hhalt, rfl⟩⟩
  case inr.inr.inr.inr =>
    cases hf : (currentSignals s k).flagsIn with
    | false => exact .inl (by simp [nextFlagC_of_no_flagsIn _ hf, nextFlagZ_of_no_flagsIn _ hf])
    | true =>
      exact .inr ⟨k, hk, hf, hhalt, by simp [nextFlagC_of_flagsIn _ hf], by simp [nextFlagZ_of_flagsIn _ hf]⟩
  all_goals exact .inl (by simp)

/-- Settles O14: each part is one of the two cases of `edge_flags_cases` with the other excluded. -/
theorem flagsAreStickyWithoutFlagsIn : Obligations.FlagsAreStickyWithoutFlagsIn := by
  unfold Obligations.FlagsAreStickyWithoutFlagsIn
  intro s t hg h
  rw [step_eq_edge fun _ => hg] at h
  rcases edge_flags_cases h with ⟨hC, hZ⟩ | ⟨k, hk, hf, hhalt, hC, hZ⟩
  case inl =>
    refine ⟨fun _ => ⟨hC, hZ⟩, fun h1 h0 => ?_, fun h1 h0 => ?_⟩
    · simp [← hC, h0] at h1
    · simp [← hZ, h0] at h1
  case inr =>
    refine ⟨fun hkeep => ?_, fun _ h0 => ⟨k, hk, hf, hhalt, hC.symm.trans h0⟩,
      fun _ h0 => ⟨k, hk, hf, hhalt, hZ.symm.trans h0⟩⟩
    rcases hkeep k hk with h' | h'
    · simp [hf] at h'
    · simp [hhalt] at h'

/-- Settles O51: the ALU's sum is the 8-bit sum (`aluResult_add`), and its carry the comparison (`aluCarry_add`). -/
theorem additionWrapsAndCarriesAbove255 : Obligations.AdditionWrapsAndCarriesAbove255 := by
  unfold Obligations.AdditionWrapsAndCarriesAbove255
  intro a b
  constructor
  · rw [aluResult_add, BitVec.toNat_add]
  · rw [aluCarry_add, decide_eq_true_iff]

end Sys2Proof.Machine
end

section
/-! ### Macro-instructions for every ROM (44_macro_instructions.md R185, R196) -/

namespace Sys2Proof.Machine

/-- Steps of one micro-cycle are edges: no edge changes the grain. -/
theorem steps_eq_edges {s : State} (n : Nat) (hg : s.grain = .microCycle) : steps n s = edges n s := by
  induction n generalizing s with
  | zero => rfl
  | succ n ih =>
    rw [steps_succ_edge n hg, edges]
    cases he : edge s with
    | next t =>
      obtain ⟨-, -, -, hgrain⟩ := edge_const he
      exact ih (hgrain.trans hg)
    | fault e => rfl
    | refused e => rfl

/-- The last edge split off, where the definition splits off the first. -/
theorem edges_succ_last (n : Nat) (s : State) : edges (n + 1) s = andThen (edges n s) edge := by
  induction n generalizing s with
  | zero => exact edges_one s
  | succ n ih =>
    calc edges (n + 1 + 1) s = andThen (edge s) (edges (n + 1)) := rfl
      _ = andThen (edge s) fun t => andThen (edges n t) edge := by rw [funext ih]
      _ = andThen (edges (n + 1) s) edge := (andThen_assoc (edge s) (edges n) edge).symm

/-- After the fetch a macro-instruction is the three Execute edges, whatever the ROM holds (R185). -/
theorem macroInstruction_eq_edges {s : State} (op : Byte) (h : s.phase = .fetch0) :
    macroInstruction op s = edges 3 (fetched op s) := by
  rw [macroInstruction_fetched op h, edges_succ_last, edges_succ_last, edges_one]

/-- Two of the five edges are the fetch. -/
theorem edges_five_of_fetch0 {s : State} (h : s.phase = .fetch0) :
    edges 5 s = edges 3 (fetched (readByte s.ram s.pc) s) := by
  rw [edges, edge_fetch0 h, andThen_next, edges, edge_doFetch0, andThen_next]

/-- In Execute(k) the instruction run is the control word at `(IR << 3) | k` (41_sequencer.md R124), in either grain. -/
theorem step_execute {t : State} {k : Fin 3} (h : t.phase = .execute k) :
    step t = exec (decodeControlWord t.cfg.sigbit (romRead t.rom (romAddress t.ir k))) t := by
  have hfetch : t.phase ≠ .fetch0 := by simp [h]
  rw [step_eq_edge fun h0 => absurd h0 hfetch, edge_execute h, exec_decodeControlWord, currentSignals]

/-- Settles O41: the macro-instruction and the five steps both end in the three edges after the fetch, and `fetched_eq`
writes out the state in which those begin. -/
theorem macroInstructionIsFiveMicroCycles : Obligations.MacroInstructionIsFiveMicroCycles := by
  unfold Obligations.MacroInstructionIsFiveMicroCycles
  intro s h hg
  have hfive : steps 5 s = edges 3 (fetched (readByte s.ram s.pc) s) := by
    rw [steps_eq_edges 5 hg, edges_five_of_fetch0 h]
  refine ⟨?exec_is_five_steps, ?fetch_part, fun t k ht => step_execute ht⟩
  case exec_is_five_steps => rw [exec_decodeOpcode, macroInstruction_eq_edges _ h, hfive]
  case fetch_part =>
    have hgf : (fetched (readByte s.ram s.pc) s).grain = .microCycle := hg
    rw [hfive, ← fetched_eq, steps_eq_edges 3 hgf]

/-- An edge whose word asserts no signal only counts and advances (30_encoding.md R87). -/
theorem edge_noSignal {s : State} {k : Fin 3} (h : s.phase = .execute k) (hword : currentSignals s k = {}) :
    edge s = .next (advance k (countCycle s)) := by
  rw [edge_execute h, hword, microStep_noSignal h]

/-- A macro-instruction whose three words assert no signal fetches its opcode, counts five micro-cycles and completes. -/
theorem macroInstruction_noSignal {op : Byte} {s : State} (h : s.phase = .fetch0)
    (hwords : ∀ k, decodeSignals s.cfg.sigbit (romRead s.rom (romAddress op k)) = {}) :
    macroInstruction op s = .next { s with
      mar := s.pc, bus := op, ir := op, pc := s.pc + 1, instructions := s.instructions + 1, cycles := s.cycles + 5 } := by
  have h0 : edge (fetched op s) = .next (advance 0 (countCycle (fetched op s))) := edge_noSignal rfl (hwords 0)
  have h1 := edge_noSignal (s := advance 0 (countCycle (fetched op s))) (k := 1) rfl (hwords 1)
  have h2 := edge_noSignal (s := advance 1 (countCycle (advance 0 (countCycle (fetched op s))))) (k := 2) rfl (hwords 2)
  rw [macroInstruction_fetched op h, h0, andThen_next, h1, andThen_next, h2]
  simp [advance_eq, countCycle, fetched_eq, h]

/-- Settles O42: an opcode of 0x10 or more selects ROM addresses past the last word, which read as the NOP word (20_memory.md
R55); the four patterns are the opcode bytes by definition. -/
theorem outOfRangeOpcodesAreNops : Obligations.OutOfRangeOpcodesAreNops := by
  unfold Obligations.OutOfRangeOpcodesAreNops
  intro s h
  refine ⟨?net_effect, fun _ _ _ _ => ⟨rfl, rfl, rfl, rfl⟩⟩
  case net_effect =>
    intro i op hi hop
    rw [exec_of_opcode hi]
    exact macroInstruction_noSignal h fun k => by rw [romRead_out_of_range _ k hop, decodeSignals_zero]

end Sys2Proof.Machine
end

section
/-! ### Encoding: decode and encode agree (30_encoding.md R82, R88, R93; 20_memory.md R56) -/

namespace Sys2Proof

/-- A well-formed control-word instruction is the name of its signal set (log 11): it is headed by the first signal. -/
theorem Instr.ofSignals_signals {i : Instr} {o : SignalSet} (hw : i.wf = true) (h : i.signals = some o) :
    Instr.ofSignals o = i := by
  cases i <;> cases h
  case nopWord => exact Instr.ofSignals_empty
  all_goals exact Laws.NamesItsWord.ofSignals_headedBy hw

theorem decodeOpcode_nopHigh7 : ∀ x : BitVec 7, decodeOpcode (1#1 ++ x) = .nopHigh7 x := by decide
theorem decodeOpcode_nopHigh6 : ∀ x : BitVec 6, decodeOpcode (1#2 ++ x) = .nopHigh6 x := by decide
theorem decodeOpcode_nopHigh5 : ∀ x : BitVec 5, decodeOpcode (1#3 ++ x) = .nopHigh5 x := by decide
theorem decodeOpcode_nopHigh4 : ∀ x : BitVec 4, decodeOpcode (1#4 ++ x) = .nopHigh4 x := by decide

/-- A macro-instruction is what its opcode byte decodes to. -/
theorem decodeOpcode_opcode {i : Instr} {op : Byte} (h : i.opcode = some op) : decodeOpcode op = i := by
  cases i <;> cases h
  case nopHigh7 x => exact decodeOpcode_nopHigh7 x
  case nopHigh6 x => exact decodeOpcode_nopHigh6 x
  case nopHigh5 x => exact decodeOpcode_nopHigh5 x
  case nopHigh4 x => exact decodeOpcode_nopHigh4 x
  all_goals rfl

theorem opcode_decodeOpcode : ∀ op : Byte, (decodeOpcode op).opcode = some op := by decide

/-- A word is put together again from its two bytes (R56). -/
theorem ControlWord.high_append_low (cw : ControlWord) : (cw >>> 8).setWidth 8 ++ cw.setWidth 8 = cw := by
  apply BitVec.eq_of_getLsbD_eq
  intro i hi
  rw [BitVec.getLsbD_append, BitVec.getLsbD_setWidth, BitVec.getLsbD_setWidth, BitVec.getLsbD_ushiftRight]
  by_cases h : i < 8
  · simp [h]
  · simp [h, show i - 8 < 8 by omega, show 8 + (i - 8) = i by omega]

/-- What the encoder writes and the format it writes it in, for the two encodings. -/
theorem encode_cases {sb : SigBit} {i : Instr} {bytes : List Byte} (h : encode sb i = some bytes) :
    (∃ o, i.signals = some o ∧ i.format = .cw16 ∧
      bytes = [(encodeSignals sb o).setWidth 8, (encodeSignals sb o >>> 8).setWidth 8]) ∨
    ∃ op, i.opcode = some op ∧ i.format = .op8 ∧ bytes = [op] := by
  unfold encode at h
  unfold Instr.format
  cases hs : i.signals with
  | some o =>
    simp only [hs, Option.some.injEq] at h
    exact .inl ⟨o, rfl, rfl, h.symm⟩
  | none =>
    cases hop : i.opcode with
    | some op =>
      simp only [hs, hop, Option.some.injEq] at h
      exact .inr ⟨op, rfl, rfl, h.symm⟩
    | none => simp [hs, hop] at h

/-- Settles O5: a control word is put together from its bytes, decodes to the set it was encoded from (SIGBIT is
injective), and that set names the instruction; an opcode byte decodes to its macro-instruction. -/
theorem decodeOfEncodeIsTheInstruction : Obligations.DecodeOfEncodeIsTheInstruction := by
  unfold Obligations.DecodeOfEncodeIsTheInstruction
  intro sb i bytes rest hsb hi henc
  rcases encode_cases henc with ⟨o, ho, hfmt, rfl⟩ | ⟨op, hop, hfmt, rfl⟩
  case inl =>
    rw [hfmt, List.cons_append, List.cons_append, List.nil_append, decodeBytes, ControlWord.high_append_low,
      decodeControlWord, decode_encode_signals hsb, Instr.ofSignals_signals hi ho]
  case inr => rw [hfmt, List.cons_append, List.nil_append, decodeBytes, decodeOpcode_opcode hop]

/-- Settles O6: a named bit is its signal (`encodeSignals_bit`), and a bit no signal has is set by none of the fold's
one-hot words (`encode_bit`). -/
theorem encodeOfDecodeKeepsTheNamedBits : Obligations.EncodeOfDecodeKeepsTheNamedBits := by
  unfold Obligations.EncodeOfDecodeKeepsTheNamedBits
  intro sb cw hsb
  constructor
  · intro s
    rw [encodeSignals_bit hsb, decodeSignals_get]
  · intro p hp
    rw [encodeSignals, encode_bit]
    simp [hp]

/-- Settles O4: the nine table words are closed and decode by evaluation; the opcode of every byte is
`opcode_decodeOpcode`. -/
theorem tableWordsDecodeToTheirRows : Obligations.TableWordsDecodeToTheirRows := by
  unfold Obligations.TableWordsDecodeToTheirRows
  refine ⟨?_, ?_, ?_, ?_, ?_, ?_, ?_, ?_, ?_, opcode_decodeOpcode⟩
  all_goals decide

end Sys2Proof
end

section
/-! ### The invariant of the sequencer and the memories (10_state.md §8; 41_sequencer.md R130, R132; 20_memory.md §8) -/

namespace Sys2Proof.Machine

/-- All an edge can do to RAM: keep it, or store the bus value at the old MAR under RAM_IN without HALT. -/
theorem edge_ram_cases {s t : State} (h : edge s = .next t) :
    t.ram = s.ram ∨
    ∃ k, s.phase = .execute k ∧ (currentSignals s k).ramIn = true ∧ (currentSignals s k).halt = false ∧
      t.ram = writeByte s.ram s.mar t.bus := by
  rcases edge_cases h with ⟨-, rfl⟩ | ⟨-, rfl⟩ | ⟨-, rfl⟩ | ⟨k, hk, ⟨-, rfl⟩ | ⟨hhalt, rfl⟩⟩
  case inr.inr.inr.inr =>
    cases hr : (currentSignals s k).ramIn with
    | false => exact .inl (by simp [hr])
    | true => exact .inr ⟨k, hk, hr, hhalt, by simp [hr]⟩
  all_goals exact .inl (by simp)

theorem edge_keeps_ram_wf {s t : State} (h : edge s = .next t) (hm : Memory.wf s.ram = true) :
    Memory.wf t.ram = true := by
  rcases edge_ram_cases h with hram | ⟨k, -, -, -, hram⟩
  · rwa [hram]
  · rw [hram]
    exact writeByte_wf hm _ _

/-- The sequencer's invariant phase by phase. -/
theorem sequencerInv_fetch0 {s : State} (h : s.phase = .fetch0) : SequencerInv s ↔ s.cycles = 5 * s.instructions := by
  simp only [SequencerInv, h]

theorem sequencerInv_fetch1 {s : State} (h : s.phase = .fetch1) :
    SequencerInv s ↔ s.cycles = 5 * s.instructions + 1 ∧ s.mar = s.pc ∧ s.bus = s.pc.setWidth 8 := by
  simp only [SequencerInv, h]

theorem sequencerInv_execute {s : State} {k : Fin 3} (h : s.phase = .execute k) :
    SequencerInv s ↔ s.cycles = 5 * s.instructions + 2 + k.val ∧
      (k = 0 → s.bus = s.ir ∧ s.ir = readByte s.ram s.mar ∧ s.pc = s.mar + 1) := by
  simp only [SequencerInv, h]

theorem sequencerInv_halted {s : State} (h : s.phase = .halted) :
    SequencerInv s ↔ 5 * s.instructions + 3 ≤ s.cycles ∧ s.cycles ≤ 5 * s.instructions + 5 := by
  simp only [SequencerInv, h]

/-- Before the last Execute step, step `k + 1` is the next number. -/
theorem executeStep_succ_val : ∀ k : Fin 3, k ≠ 2 → (k + 1).val = k.val + 1 := by decide

/-- The advance after a micro-step that left the phase and the counters to it: after step 2 the five cycles of the
instruction are complete, and before it the next step is not step 0, of which alone more is claimed. -/
theorem sequencerInv_advance {u : State} {k : Fin 3} (h : u.cycles = 5 * u.instructions + 3 + k.val) :
    SequencerInv (advance k u) := by
  by_cases hk : k = 2
  · subst hk
    rw [sequencerInv_fetch0 (by simp)]
    simp [h]
    omega
  · have hval : (k + 1).val = k.val + 1 := executeStep_succ_val k hk
    have hnext : k + 1 ≠ 0 := fun h0 => by simp [h0] at hval
    rw [sequencerInv_execute (k := k + 1) (by simp [hk])]
    simp [h, hk, hnext, hval]
    omega

theorem edge_keeps_sequencerInv {s t : State} (h : edge s = .next t) (hs : SequencerInv s) : SequencerInv t := by
  rcases edge_cases h with ⟨-, rfl⟩ | ⟨hp, rfl⟩ | ⟨hp, rfl⟩ | ⟨k, hk, ⟨-, rfl⟩ | ⟨-, rfl⟩⟩
  · exact hs
  · rw [sequencerInv_fetch0 hp] at hs
    rw [sequencerInv_fetch1 (doFetch0_phase _)]
    exact ⟨by simp [hs], lowNibble_zext8 _, rfl⟩
  · obtain ⟨hcycles, hmar, -⟩ := (sequencerInv_fetch1 hp).1 hs
    rw [sequencerInv_execute (doFetch1_phase _ _)]
    simp [hcycles, hmar]
  · obtain ⟨hcycles, -⟩ := (sequencerInv_execute hk).1 hs
    rw [sequencerInv_halted (enterHalted_phase _)]
    simp only [enterHalted_cycles, enterHalted_instructions, countCycle_cycles, countCycle_instructions]
    omega
  · obtain ⟨hcycles, -⟩ := (sequencerInv_execute hk).1 hs
    apply sequencerInv_advance
    simp only [latch_cycles, latch_instructions, countCycle_cycles, countCycle_instructions]
    omega

theorem edge_keeps_inv {s t : State} (h : edge s = .next t) (hs : Inv s) : Inv t := by
  obtain ⟨hram, hrom, hseq⟩ := hs
  obtain ⟨hrom', -, -, -⟩ := edge_const h
  exact ⟨edge_keeps_ram_wf h hram, hrom' ▸ hrom, edge_keeps_sequencerInv h hseq⟩

/-- Settles O18: every edge keeps the invariant, and a step in either grain is a sequence of edges. -/
theorem everyStepKeepsTheInvariant : Obligations.EveryStepKeepsTheInvariant := by
  unfold Obligations.EveryStepKeepsTheInvariant
  intro s t hs h
  exact step_rel_of_edge (P := fun s t => Inv s → Inv t) (fun _ _ _ h1 h2 hs => h2 (h1 hs))
    (fun _ _ => edge_keeps_inv) h hs

/-- Settles O17: both memories are empty, and the counters are 0 in Fetch0. -/
theorem invariantHoldsAtReset : Obligations.InvariantHoldsAtReset := by
  unfold Obligations.InvariantHoldsAtReset
  exact ⟨rfl, rfl, (sequencerInv_fetch0 rfl).2 rfl⟩

/-- Settles O16: no edge changes an input, and a step in either grain is a sequence of edges. -/
theorem stepNeverChangesRomParametersOrClock : Obligations.StepNeverChangesRomParametersOrClock := by
  unfold Obligations.StepNeverChangesRomParametersOrClock
  intro s t h
  refine step_rel_of_edge
    (P := fun s t => t.rom = s.rom ∧ t.cfg = s.cfg ∧ t.clock = s.clock ∧ t.grain = s.grain)
    ?trans (fun _ _ => edge_const) h
  case trans =>
    rintro s t u ⟨hrom, hcfg, hclock, hgrain⟩ ⟨hrom', hcfg', hclock', hgrain'⟩
    exact ⟨hrom'.trans hrom, hcfg'.trans hcfg, hclock'.trans hclock, hgrain'.trans hgrain⟩

/-- Settles O13: the second case of `edge_ram_cases`. -/
theorem onlyRamInChangesRam : Obligations.OnlyRamInChangesRam := by
  unfold Obligations.OnlyRamInChangesRam
  intro s t hg h hne
  rw [step_eq_edge fun _ => hg] at h
  rcases edge_ram_cases h with hkept | ⟨k, hk, hr, hhalt, -⟩
  · exact absurd hkept hne
  · exact ⟨k, hk, hr, hhalt⟩

/-- Settles O15: the cases of an edge; PC is written in Fetch1, and in Execute under PC_INC. -/
theorem pcMovesOnlyByOne : Obligations.PcMovesOnlyByOne := by
  unfold Obligations.PcMovesOnlyByOne
  intro s t hg h
  rw [step_eq_edge fun _ => hg] at h
  rcases edge_cases h with ⟨-, rfl⟩ | ⟨-, rfl⟩ | ⟨hp, rfl⟩ | ⟨k, hk, ⟨-, rfl⟩ | ⟨hhalt, rfl⟩⟩
  case inr.inr.inl => exact .inr ⟨by simp, .inl hp⟩
  case inr.inr.inr.inr =>
    cases hinc : (currentSignals s k).pcInc with
    | false => exact .inl (by simp [hinc])
    | true => exact .inr ⟨by simp [hinc], .inr ⟨k, hk, hinc, hhalt⟩⟩
  all_goals exact .inl (by simp)

end Sys2Proof.Machine
end

section
/-! ### A well-formed ROM never stops the machine (40_control_word_decode.md R114); when it stops
(60_exceptions.md §1) -/

namespace Sys2Proof.Machine

/-- Outside Execute an edge answers a next state. -/
theorem edge_next_of_not_execute {s : State} (h : ∀ k, s.phase ≠ .execute k) : ∃ t, edge s = .next t := by
  match hp : s.phase with
  | .halted => exact ⟨_, edge_halted hp⟩
  | .fetch0 => exact ⟨_, edge_fetch0 hp⟩
  | .fetch1 => exact ⟨_, edge_fetch1 hp⟩
  | .execute k => exact absurd hp (h k)

/-- Everything an edge in Execute(k) can answer: `microStep_cases` at the word the ROM holds. -/
theorem edge_execute_cases {s : State} {k : Fin 3} (h : s.phase = .execute k) :
    ((currentSignals s k).halt = true ∧ edge s = .next (enterHalted (countCycle s))) ∨
    ((currentSignals s k).halt = false ∧ ¬ FlagsAllowed (currentSignals s k) s ∧
      edge s = .refused .flagsInWithoutAluOut) ∨
    ((currentSignals s k).halt = false ∧ FlagsAllowed (currentSignals s k) s ∧ 2 ≤ (currentSignals s k).sourceCount ∧
      s.cfg.contention = .fault ∧ edge s = .fault (.busContention s.ir k (assertedSources (currentSignals s k)))) ∨
    ((currentSignals s k).halt = false ∧ FlagsAllowed (currentSignals s k) s ∧
      ((currentSignals s k).sourceCount ≤ 1 ∨ s.cfg.contention = .anyAssertedSource) ∧
      edge s = .next (advance k
        (latch (currentSignals s k) (busValue (currentSignals s k) (countCycle s)) (countCycle s)))) := by
  rw [edge_execute h]
  rcases microStep_cases (currentSignals s k) s with ⟨h1, -⟩ | ⟨h1, -⟩ | ⟨j, hj, hcases⟩
  · simp [h] at h1
  · simp [h] at h1
  · obtain rfl : k = j := by simpa [h] using hj
    exact hcases

/-- Every word the sequencer can select is one of the 48 of a well-formed ROM, or the NOP word. -/
theorem currentSignals_wf {s : State} (h : RomWellFormed s) (k : Fin 3) : (currentSignals s k).wf = true := by
  by_cases hir : s.ir.toNat < 16
  · exact h s.ir k hir
  · rw [currentSignals, romRead_out_of_range _ _ (by omega), decodeSignals_zero]
    rfl

theorem edge_of_safeState {s : State} (h : SafeState s) : ∃ t, edge s = .next t ∧ SafeState t := by
  obtain ⟨hrom, hflags⟩ := h
  have hnext : ∃ t, edge s = .next t := by
    by_cases hp : ∃ k, s.phase = .execute k
    · obtain ⟨k, hk⟩ := hp
      have hwf := currentSignals_wf hrom k
      simp only [SignalSet.wf, Bool.or_eq_true, decide_eq_true_eq] at hwf
      rcases edge_execute_cases hk with ⟨-, he⟩ | ⟨-, hf, -⟩ | ⟨hhalt, -, hc, -⟩ | ⟨-, -, -, he⟩
      · exact ⟨_, he⟩
      · exact absurd (.inr (.inr hflags)) hf
      · simp [hhalt] at hwf
        omega
      · exact ⟨_, he⟩
    · exact edge_next_of_not_execute fun k hk => hp ⟨k, hk⟩
  obtain ⟨t, ht⟩ := hnext
  obtain ⟨hr, hc, -, -⟩ := edge_const ht
  refine ⟨t, ht, ?_, hc ▸ hflags⟩
  unfold RomWellFormed
  rwa [hr, hc]

/-- A step is one macro-instruction at an instruction boundary under that grain, and one micro-cycle otherwise (log 9). -/
theorem grain_cases (s : State) :
    (s.phase = .fetch0 ∧ s.grain = .macroInstruction) ∨ (s.phase = .fetch0 → s.grain = .microCycle) := by
  cases s.grain with
  | microCycle => exact .inr fun _ => rfl
  | macroInstruction => exact (em (s.phase = .fetch0)).imp (fun hp => ⟨hp, rfl⟩) fun hp h => absurd h hp

/-- A predicate from which every edge goes on, and which it keeps, is one from which every step, in either grain,
goes on, and which it keeps: the counterpart of `step_rel_of_edge` for progress. -/
theorem step_progress_of_edge {P : State → Prop} (he : ∀ s, P s → ∃ t, edge s = .next t ∧ P t) {s : State} (h : P s) :
    ∃ t, step s = .next t ∧ P t := by
  have hthen : ∀ {r : Result}, (∃ t, r = .next t ∧ P t) → ∃ t, andThen r edge = .next t ∧ P t := by
    rintro _ ⟨t, rfl, ht⟩
    exact he t ht
  rcases grain_cases s with ⟨hp, hg⟩ | hmicro
  · rw [step_eq_macroInstruction hp hg, macroInstruction_edges hp]
    exact hthen (hthen (hthen (hthen (he s h))))
  · rw [step_eq_edge hmicro]
    exact he s h

/-- Settles O19: an edge from a safe state answers a safe one, and a step in either grain is a sequence of edges. -/
theorem wellFormedRomNeverStops : Obligations.WellFormedRomNeverStops := by
  unfold Obligations.WellFormedRomNeverStops
  intro s h
  exact step_progress_of_edge (fun _ => edge_of_safeState) h

/-- Settles O20: outside Execute an edge answers a next state; in Execute(k) the four cases of `edge_execute_cases`
exclude each other, and each says which of the two stops it is. -/
theorem stepStopsExactlyWhenTheSpecSays : Obligations.StepStopsExactlyWhenTheSpecSays := by
  unfold Obligations.StepStopsExactlyWhenTheSpecSays
  intro s hg
  rw [step_eq_edge fun _ => hg]
  by_cases hp : ∃ k, s.phase = .execute k
  · obtain ⟨k, hk⟩ := hp
    simp only [hk, Phase.execute.injEq, exists_eq_left']
    rcases edge_execute_cases hk with ⟨hhalt, he⟩ | ⟨hhalt, hf, he⟩ | ⟨hhalt, hf, hc, hcfg, he⟩ | ⟨hhalt, hf, hc, he⟩
    · simp [he, hhalt]
    · simp [he, hhalt, hf, eq_comm]
    · simp [he, hhalt, hf, hc, hcfg, assertedSources, eq_comm]
    · have hstop : ¬ (2 ≤ (currentSignals s k).sourceCount ∧ s.cfg.contention = .fault) := by
        rintro ⟨h2, hcfg⟩
        rcases hc with hc | hc
        · omega
        · simp [hcfg] at hc
      constructor
      · intro e
        simp only [he, reduceCtorEq, false_iff]
        rintro ⟨-, -, h2, hcfg, -⟩
        exact hstop ⟨h2, hcfg⟩
      · simp [he, hf]
  · obtain ⟨t, ht⟩ := edge_next_of_not_execute fun k hk => hp ⟨k, hk⟩
    have hno : ∀ k, s.phase ≠ .execute k := fun k hk => hp ⟨k, hk⟩
    simp [ht, hno]

end Sys2Proof.Machine
end

section
/-! ### The transition table and the frame of an Execute micro-step (41_sequencer.md §7; 42_signal_execution.md §1) -/

namespace Sys2Proof.Machine

/-- What an Execute edge that answers a next state has done. -/
theorem edge_execute_next {s t : State} {k : Fin 3} (hk : s.phase = .execute k) (h : edge s = .next t) :
    ((currentSignals s k).halt = true ∧ t = enterHalted (countCycle s)) ∨
    ((currentSignals s k).halt = false ∧
      t = advance k (latch (currentSignals s k) (busValue (currentSignals s k) (countCycle s)) (countCycle s))) := by
  rcases edge_execute_cases hk with ⟨hhalt, he⟩ | ⟨-, -, he⟩ | ⟨-, -, -, -, he⟩ | ⟨hhalt, -, -, he⟩ <;>
    rw [he] at h <;> cases h
  · exact .inl ⟨hhalt, rfl⟩
  · exact .inr ⟨hhalt, rfl⟩

/-- Settles O11: the cases of an edge, each written out; the Execute row is `latch_effect`, with the bus value of
`busValue_eq_drivenValue`. -/
theorem stepFollowsTheTransitionTable : Obligations.StepFollowsTheTransitionTable := by
  unfold Obligations.StepFollowsTheTransitionTable
  intro s t hg hram h
  rw [step_eq_edge fun _ => hg] at h
  refine ⟨fun hp => ?halted, fun hp => ?fetch0, fun hp => ?fetch1, fun k hk => ?execute⟩
  case halted =>
    rw [edge_halted hp] at h
    cases h
    rfl
  case fetch0 =>
    rw [edge_fetch0 hp] at h
    cases h
    rfl
  case fetch1 =>
    rw [edge_fetch1 hp] at h
    cases h
    rfl
  case execute =>
    rcases edge_execute_next hk h with ⟨hhalt, rfl⟩ | ⟨hhalt, rfl⟩
    · exact ⟨fun _ => rfl, fun hno => by simp [hhalt] at hno⟩
    · refine ⟨fun hyes => by simp [hhalt] at hyes, fun _ => ⟨?_, fun hc => ?_⟩⟩
      · simpa only [advance_bus, latch_bus] using latch_effect _ k _ hram
      · rw [advance_bus, latch_bus, busValue_eq_drivenValue _ hc]
        rfl

/-- A field that takes a value only under a signal changes only under it. -/
theorem signal_of_ite_ne {α : Type} {c : Bool} {x y z : α} (h : x = if c then y else z) (hne : x ≠ z) : c = true := by
  by_contra hc
  exact hne (by rw [h, if_neg hc])

/-- Settles O12: a HALT word changes nothing but the phase and the cycle count; every other word has the effect
`MicroStepEffect`, of which each field changes only under its signal. -/
theorem executeChangesOnlyWhatASignalWrites : Obligations.ExecuteChangesOnlyWhatASignalWrites := by
  unfold Obligations.ExecuteChangesOnlyWhatASignalWrites
  intro s t k hram hk h
  rw [step_eq_edge fun hp => by simp [hk] at hp] at h
  have hconst := edge_const h
  rcases edge_execute_next hk h with ⟨hhalt, rfl⟩ | ⟨hhalt, ht⟩
  case inl =>
    simp only [hhalt]
    simp [enterHalted, countCycle]
  case inr =>
    have heffect := latch_effect (currentSignals s k) k (busValue (currentSignals s k) (countCycle s)) hram
    rw [← ht] at heffect
    refine ⟨signal_of_ite_ne heffect.a, signal_of_ite_ne heffect.b, signal_of_ite_ne heffect.ir,
      signal_of_ite_ne heffect.mar, signal_of_ite_ne heffect.pc, ?flags, ?bus, ?ram,
      fun hyes => by simp [hhalt] at hyes, fun _ => ⟨heffect.phase, heffect.cycles, heffect.instructions⟩, hconst⟩
    case flags => exact fun hne => hne.elim (signal_of_ite_ne heffect.flagC) (signal_of_ite_ne heffect.flagZ)
    case bus =>
      intro hne hnone
      exact hne (by rw [heffect.bus, busValue_none _ hnone, countCycle_bus])
    case ram =>
      intro x hne
      by_contra hc
      exact hne (by rw [heffect.ram, if_neg hc])

end Sys2Proof.Machine
end

section
/-! ### The instruction a step runs (41_sequencer.md §1, R122, R128; logs 9, 12, 17) -/

namespace Sys2Proof.Machine

/-- A control-word instruction runs as the micro-step of its signal set. -/
theorem exec_of_signals {i : Instr} {o : SignalSet} (h : i.signals = some o) (s : State) :
    exec i s = microStep o s := by
  cases i <;> cases h <;> rfl

/-- Every instruction is a control word, a macro-instruction, or one of the two fetch micro-operations. -/
theorem instr_cases (i : Instr) :
    (∃ o, i.signals = some o) ∨ (∃ op, i.opcode = some op) ∨ i = .fetch0 ∨ i = .fetch1 := by
  cases i
  case fetch0 => exact .inr (.inr (.inl rfl))
  case fetch1 => exact .inr (.inr (.inr rfl))
  case pcOut | ramOut | irOut | aOut | bOut | aluOut | marIn | ramIn | irIn | aIn | bIn | pcInc | aluSub | flagsIn | halt |
      nopWord =>
    exact .inl ⟨_, rfl⟩
  all_goals exact .inr (.inl ⟨_, rfl⟩)

theorem microStep_halted (o : SignalSet) {s : State} (h : s.phase = .halted) : microStep o s = .next s := by
  simp only [microStep, h]

theorem macroInstruction_halted (op : Byte) {s : State} (h : s.phase = .halted) : macroInstruction op s = .next s := by
  simp only [macroInstruction, h]

theorem exec_fetch0 {s : State} (h : s.phase = .fetch0) : exec .fetch0 s = .next (doFetch0 (countCycle s)) := by
  simp only [exec, execFetch0, h]

theorem exec_halted (i : Instr) {s : State} (h : s.phase = .halted) : exec i s = .next s := by
  rcases instr_cases i with ⟨o, ho⟩ | ⟨op, hop⟩ | rfl | rfl
  · rw [exec_of_signals ho, microStep_halted o h]
  · rw [exec_of_opcode hop, macroInstruction_halted op h]
  · simp only [exec, execFetch0, h]
  · simp only [exec, execFetch1, h]

theorem step_halted {s : State} (h : s.phase = .halted) : step s = .next s := by
  rw [step_eq_edge fun h0 => by simp [h] at h0, edge_halted h]

/-- Settles O10. -/
theorem haltedAbsorbsEveryInstruction : Obligations.HaltedAbsorbsEveryInstruction := by
  unfold Obligations.HaltedAbsorbsEveryInstruction
  intro i s h
  exact ⟨step_halted h, exec_halted i h⟩

/-- Settles O8: phase by phase, a step is an edge, or the macro-instruction at PC, and so is `exec` of what is
selected. -/
theorem stepRunsTheSelectedInstruction : Obligations.StepRunsTheSelectedInstruction := by
  unfold Obligations.StepRunsTheSelectedInstruction
  intro s
  refine ⟨step_halted, fun h hg => ?fetch0, fun h hg => ?macroInstruction, fun h => ?fetch1, fun k h => step_execute h⟩
  case fetch0 => rw [step_eq_edge fun _ => hg, edge_fetch0 h, exec_fetch0 h]
  case macroInstruction => rw [step_eq_macroInstruction h hg, exec_decodeOpcode]
  case fetch1 => rw [step_eq_edge fun h0 => by simp [h] at h0, edge_fetch1 h, exec_fetch1 h]

/-- Settles O22: DoFetch0 and the cycle count, as one record update; MAR takes the low nibble of PC on the bus. -/
theorem fetch0PutsPcOnBusAndMar : Obligations.Fetch0PutsPcOnBusAndMar := by
  unfold Obligations.Fetch0PutsPcOnBusAndMar
  intro s h
  have hmar : lowNibble (zext8 s.pc) = s.pc := lowNibble_zext8 _
  rw [exec_fetch0 h]
  simp only [doFetch0, countCycle, hmar]
  rfl

/-- Settles O39: a control word is refused in the fetch phases, a fetch micro-operation outside its own, and a
macro-instruction outside Fetch0. -/
theorem wrongPhaseIsRefused : Obligations.WrongPhaseIsRefused := by
  unfold Obligations.WrongPhaseIsRefused
  intro s
  refine ⟨fun sb cw h => ?controlWord, fun h => ?_, fun h => ?_, fun k h => ⟨?_, ?_⟩, fun op k h => ?macroInstruction⟩
  case controlWord =>
    rw [exec_decodeControlWord]
    rcases h with h | h <;> simp only [microStep, h]
  case macroInstruction =>
    rw [exec_decodeOpcode]
    rcases h with h | h <;> simp only [macroInstruction, h]
  all_goals simp only [exec, execFetch0, execFetch1, h]

/-- The word placed by `placeControlWord` is the one the ROM holds at the placed IR and step: its address is one of the
128, since the placed IR is below 0x10. -/
theorem romRead_placeControlWord (cw : ControlWord) {s : State} (hrom : Rom.wf s.rom = true) :
    romRead (placeControlWord cw s).rom (romAddress (placeControlWord cw s).ir (placedStep s)) = cw := by
  have hir : (placeControlWord cw s).ir.toNat < 16 := by
    simp only [placeControlWord]
    split
    · assumption
    · decide
  have haddr : (romAddress (placeControlWord cw s).ir (placedStep s)).toNat < 128 := by
    rw [romAddress_toNat]
    omega
  exact romRead_romWrite_same hrom cw haddr

theorem readByte_placeOpcode (op : Byte) {s : State} (hram : Memory.wf s.ram = true) :
    readByte (placeOpcode op s).ram (placeOpcode op s).pc = op :=
  readByte_writeByte_same (writeByte_wf hram _ _) _ _

/-- Settles O9: the placed control word stands at the ROM address the next step reads, and the placed opcode byte at PC,
with its three words installed. -/
theorem placedWordIsTheNextInstruction : Obligations.PlacedWordIsTheNextInstruction := by
  unfold Obligations.PlacedWordIsTheNextInstruction
  intro s w hram hrom hsb
  have h16 : s.withFetchWord 16 w = placeControlWord (BitVec.ofNat 16 w) s := rfl
  have h8 : s.withFetchWord 8 w = placeOpcode (BitVec.ofNat 8 w) s := rfl
  rw [h16, h8]
  refine ⟨⟨placedStep s, rfl⟩, ?controlWord, rfl, romRead_installMicrocode hsb _ hrom, ?opcode⟩
  case controlWord =>
    rw [step_execute (k := placedStep s) rfl, romRead_placeControlWord _ hrom]
    rfl
  case opcode => rw [step_eq_macroInstruction rfl rfl, readByte_placeOpcode _ hram, exec_decodeOpcode]

end Sys2Proof.Machine
end

section
/-! ### The flags steer nothing (10_state.md §4; 70_reset_and_hazards.md §3) -/

namespace Sys2Proof.Machine

/-- The state with both flags set to given values. -/
def State.withFlags (s : State) (c z : Bool) : State := { s with flagC := c, flagZ := z }

@[simp] theorem withFlags_phase (s : State) (c z : Bool) : (s.withFlags c z).phase = s.phase := rfl
@[simp] theorem withFlags_ir (s : State) (c z : Bool) : (s.withFlags c z).ir = s.ir := rfl
@[simp] theorem withFlags_cfg (s : State) (c z : Bool) : (s.withFlags c z).cfg = s.cfg := rfl

theorem withFlags_currentSignals (s : State) (c z : Bool) (k : Fin 3) :
    currentSignals (s.withFlags c z) k = currentSignals s k := rfl

theorem withFlags_countCycle (s : State) (c z : Bool) : countCycle (s.withFlags c z) = (countCycle s).withFlags c z :=
  rfl

/-- The next state of a word that completes reads no flag but to keep it. -/
theorem advance_latch_withFlags (o : SignalSet) (k : Fin 3) (s : State) (c z : Bool) :
    (advance k (latch o (busValue o (s.withFlags c z)) (s.withFlags c z))).eraseFlags =
      (advance k (latch o (busValue o s) s)).eraseFlags := by
  rw [advance_eq, advance_eq]
  rfl

theorem executeSet_withFlags (o : SignalSet) (k : Fin 3) (s : State) (c z : Bool) :
    eraseFlagsOf (executeSet o k (s.withFlags c z)) = eraseFlagsOf (executeSet o k s) := by
  unfold executeSet applySignals
  rw [withFlags_cfg, withFlags_ir]
  by_cases hhalt : o.halt = true
  · rw [if_pos hhalt, if_pos hhalt]
    rfl
  by_cases hf : flagsRefused o s.cfg = true
  · simp only [if_neg hhalt, if_pos hf, andThen_refused]
  by_cases hc : (contends o && decide (s.cfg.contention = .fault)) = true
  · simp only [if_neg hhalt, if_neg hf, if_pos hc, andThen_fault]
  · simp only [if_neg hhalt, if_neg hf, if_neg hc, andThen_next]
    exact congrArg Host.Outcome.next (advance_latch_withFlags o k s c z)

/-- Two states that differ only in the flags: the phase, the word and every micro-operation are the same. -/
theorem edge_withFlags (s : State) (c z : Bool) :
    eraseFlagsOf (edge (s.withFlags c z)) = eraseFlagsOf (edge s) := by
  match hp : s.phase with
  | .halted =>
    rw [edge_halted hp, edge_halted (s := s.withFlags c z) hp]
    rfl
  | .fetch0 =>
    rw [edge_fetch0 hp, edge_fetch0 (s := s.withFlags c z) hp]
    rfl
  | .fetch1 =>
    rw [edge_fetch1 hp, edge_fetch1 (s := s.withFlags c z) hp]
    rfl
  | .execute k =>
    rw [edge_execute hp, edge_execute (s := s.withFlags c z) hp]
    simp only [withFlags_currentSignals, microStep, withFlags_phase, hp, withFlags_countCycle]
    exact executeSet_withFlags _ k (countCycle s) c z

theorem eq_withFlags_of_eraseFlags_eq {s u : State} (h : u.eraseFlags = s.eraseFlags) :
    u = s.withFlags u.flagC u.flagZ := by
  cases s
  cases u
  simpa [State.eraseFlags, State.withFlags] using h

/-- Equal up to the flags before an edge, equal up to the flags after it, stops included. -/
theorem andThen_edge_eraseFlags {r r' : Result} (h : eraseFlagsOf r = eraseFlagsOf r') :
    eraseFlagsOf (andThen r edge) = eraseFlagsOf (andThen r' edge) := by
  cases r with
  | next u =>
    cases r' with
    | next s =>
      rw [andThen_next, andThen_next, eq_withFlags_of_eraseFlags_eq (Host.Outcome.next.inj h), edge_withFlags]
    | fault e => cases h
    | refused e => cases h
  | fault e => cases r' <;> cases h; rfl
  | refused e => cases r' <;> cases h; rfl

/-- Settles O21: an edge from two states that differ in the flags ends in two that do so, and a step in either grain is
a sequence of edges. -/
theorem flagsSteerNothing : Obligations.FlagsSteerNothing := by
  unfold Obligations.FlagsSteerNothing
  intro s c z
  have hedge := edge_withFlags s c z
  change eraseFlagsOf (step (s.withFlags c z)) = eraseFlagsOf (step s)
  rcases grain_cases s with ⟨hp, hg⟩ | hmicro
  · rw [step_eq_macroInstruction hp hg, step_eq_macroInstruction (s := s.withFlags c z) hp hg,
      macroInstruction_edges hp, macroInstruction_edges (s := s.withFlags c z) hp]
    exact andThen_edge_eraseFlags (andThen_edge_eraseFlags (andThen_edge_eraseFlags (andThen_edge_eraseFlags hedge)))
  · rw [step_eq_edge hmicro, step_eq_edge (s := s.withFlags c z) hmicro, hedge]

end Sys2Proof.Machine
end

section
/-! ### Signal sets: which signals count for the sources, the bus and the effect of a word (30_encoding.md R82) -/

namespace Sys2Proof

theorem SignalSet.sourceCount_congr {o p : SignalSet} (h : ∀ g ∈ Signal.sources, o.get g = p.get g) :
    o.sourceCount = p.sourceCount := congrArg List.length (List.filter_congr h)

/-- A signal that is no source asserts no source. -/
theorem SignalSet.get_assert_source {g : Signal} (hg : g ∉ Signal.sources) (o : SignalSet) :
    ∀ x ∈ Signal.sources, (o.assert g).get x = o.get x := by
  intro x hx
  have hne : x ≠ g := fun e => hg (e ▸ hx)
  simp [SignalSet.get_assert, hne]

theorem SignalSet.get_drop_source {g : Signal} (hg : g ∉ Signal.sources) (o : SignalSet) :
    ∀ x ∈ Signal.sources, (o.drop g).get x = o.get x := by
  intro x hx
  have hne : x ≠ g := fun e => hg (e ▸ hx)
  simp [SignalSet.get_drop, hne]

theorem SignalSet.sourceCount_eq_zero_iff (o : SignalSet) :
    o.sourceCount = 0 ↔ ∀ g ∈ Signal.sources, o.get g = false := by
  simp [SignalSet.sourceCount, List.filter_eq_nil_iff]

/-- A source asserted in a word without one is its only source. -/
theorem SignalSet.sourceCount_assert_source {o : SignalSet} {g : Signal} (hg : g ∈ Signal.sources)
    (h : o.sourceCount = 0) : (o.assert g).sourceCount = 1 := by
  have hnone := (SignalSet.sourceCount_eq_zero_iff o).1 h
  have hsame : (o.assert g).sourceCount = (({} : SignalSet).assert g).sourceCount :=
    SignalSet.sourceCount_congr fun x hx => by
      rw [SignalSet.get_assert, SignalSet.get_assert, hnone x hx, ((SignalSet.eq_empty_iff {}).1 rfl) x]
  have hone : ∀ g ∈ Signal.sources, (({} : SignalSet).assert g).sourceCount = 1 := by decide
  rw [hsame, hone g hg]

end Sys2Proof

namespace Sys2Proof.Machine

theorem assertedSources_congr {o p : SignalSet} (h : ∀ g ∈ Signal.sources, o.get g = p.get g) :
    assertedSources o = assertedSources p := List.filter_congr h

theorem mem_assertedSources {o : SignalSet} {x : Signal} :
    x ∈ assertedSources o ↔ x ∈ Signal.sources ∧ o.get x = true := List.mem_filter

/-- The bus value depends on the asserted sources and on what they drive, at the same free choice (log 10). -/
theorem busValue_congr {o p : SignalSet} {s : State} (h : ∀ g ∈ Signal.sources, o.get g = p.get g)
    (hv : ∀ x ∈ assertedSources p, sourceValue o s x = sourceValue p s x) : busValue o s = busValue p s := by
  unfold busValue
  rw [assertedSources_congr h]
  match hl : assertedSources p with
  | [] => rfl
  | [x] => exact hv x (by simp [hl])
  | x :: y :: rest => exact hv _ (by rw [hl]; exact freeChoice_mem x (y :: rest) _)

/-- The value a source drives, in the vocabulary of the statements: it depends on no other signal of the word but
ALU_SUB. -/
theorem sourceValue_eq_drivenValue (o : SignalSet) (s : State) (x : Signal) :
    sourceValue o s x = drivenValue (SignalSet.assert { aluSub := o.aluSub } x) s := by
  cases x
  case aluOut => exact aluResult_eq o.aluSub s.a s.b
  all_goals rfl

/-- Signal sets that agree on the sinks, the modifiers and ALU_SUB have the same effect at the same bus value; a source
acts through the bus value only. -/
theorem MicroStepEffect.of_assert_source {o : SignalSet} {g : Signal} {k : Fin 3} {v : Byte} {s t : State}
    (hg : g ∈ Signal.sources) (h : MicroStepEffect (o.assert g) k v s t) : MicroStepEffect o k v s t := by
  simp only [Signal.sources, List.mem_cons, List.not_mem_nil, or_false] at hg
  rcases hg with rfl | rfl | rfl | rfl | rfl | rfl <;> exact { h with }

/-- Asserting a signal other than HALT and FLAGS_IN leaves the word one that may run. -/
theorem Ready.assert {o : SignalSet} {k : Fin 3} {s : State} {g : Signal} (h : Ready o k s) (hhalt : g ≠ .halt)
    (hflags : g ≠ .flagsIn) : Ready (o.assert g) k s := by
  have hget : ∀ {x : Signal}, g ≠ x → (o.assert g).get x = o.get x := fun hne => by
    simp [SignalSet.get_assert, hne.symm]
  have halu : o.get .aluOut = true → (o.assert g).get .aluOut = true := fun h => by simp [SignalSet.get_assert, h]
  obtain ⟨hp, hh, hf, hr⟩ := h
  refine ⟨hp, (hget hhalt).trans hh, ?_, hr⟩
  rcases hf with hf | hf | hf
  · exact .inl ((hget hflags).trans hf)
  · exact .inr (.inl (halu hf))
  · exact .inr (.inr hf)

end Sys2Proof.Machine
end

section
/-! ### Control words: their effect as the set of their signals (42_signal_execution.md §1 to §5) -/

namespace Sys2Proof.Machine

/-- Settles O25: the word runs as the micro-step of its set, which completes (`microStep_completes`). -/
theorem controlWordActsAsItsSet : Obligations.ControlWordActsAsItsSet := by
  unfold Obligations.ControlWordActsAsItsSet
  intro sb cw s k h hc
  rw [exec_decodeControlWord]
  exact microStep_completes h hc

/-- A word without a source completes with the kept bus (42_signal_execution.md R142, D6). -/
theorem microStep_noSource {o : SignalSet} {s : State} {k : Fin 3} (h : Ready o k s) (hc : o.sourceCount = 0) :
    ∃ t, microStep o s = .next t ∧ MicroStepEffect o k s.bus s t := by
  obtain ⟨t, ht, -, heffect⟩ := microStep_completes h (by omega)
  rw [← busValue_eq_drivenValue s (by omega), busValue_none s hc] at heffect
  exact ⟨t, ht, heffect⟩

/-- A source asserted in a word without one drives its value (R141), and the rest of the word acts as it says. -/
theorem microStep_oneSource {o : SignalSet} {s : State} {k : Fin 3} {g : Signal} (hg : g ∈ Signal.sources)
    (h : Ready (o.assert g) k s) (hc : o.sourceCount = 0) :
    ∃ t, microStep (o.assert g) s = .next t ∧
      MicroStepEffect o k (drivenValue (SignalSet.assert { aluSub := (o.assert g).aluSub } g) s) s t := by
  have hone : (o.assert g).sourceCount = 1 := SignalSet.sourceCount_assert_source hg hc
  have hmem : g ∈ assertedSources (o.assert g) :=
    mem_assertedSources.2 ⟨hg, by simp [SignalSet.get_assert]⟩
  have hdriven : drivenValue (o.assert g) s = drivenValue (SignalSet.assert { aluSub := (o.assert g).aluSub } g) s := by
    obtain ⟨x, hx⟩ := List.length_eq_one_iff.1 hone
    have hgx : g = x := List.mem_singleton.1 (hx ▸ hmem)
    have hlist : assertedSources (o.assert g) = [g] := by rw [hgx]; exact hgx ▸ hx
    rw [← sourceValue_eq_drivenValue, ← busValue_eq_drivenValue s (by omega), busValue, hlist]
  obtain ⟨t, ht, -, heffect⟩ := microStep_completes h (by omega)
  exact ⟨t, ht, (hdriven ▸ heffect).of_assert_source hg⟩

/-- Settles O26: the one source of the word is A, or B. -/
theorem registerSourceDrivesTheBus : Obligations.RegisterSourceDrivesTheBus := by
  unfold Obligations.RegisterSourceDrivesTheBus
  refine ⟨by decide, by decide, fun o s k h hc => ⟨?aOut, ?bOut⟩⟩
  case aOut => exact microStep_oneSource (g := .aOut) (by decide) (h.assert (by decide) (by decide)) hc
  case bOut => exact microStep_oneSource (g := .bOut) (by decide) (h.assert (by decide) (by decide)) hc

/-- Settles O27: the one source of the word is RAM at the old MAR; RAM_IN stores there the byte that is there. -/
theorem ramSourceDrivesTheByteAtOldMar : Obligations.RamSourceDrivesTheByteAtOldMar := by
  unfold Obligations.RamSourceDrivesTheByteAtOldMar
  intro o s k h hc
  obtain ⟨t, ht, heffect⟩ :=
    microStep_oneSource (g := .ramOut) (by decide) (h.assert (by decide) (by decide)) hc
  refine ⟨t, ht, heffect, fun x => ?_⟩
  rw [heffect.ram]
  split
  case isTrue hx => rw [hx.2]; rfl
  case isFalse => rfl

/-- Settles O28: the one source of the word is PC, or IR, of the state before it. -/
theorem pcAndIrSourcesDriveTheBus : Obligations.PcAndIrSourcesDriveTheBus := by
  unfold Obligations.PcAndIrSourcesDriveTheBus
  intro o s k h hc
  exact ⟨microStep_oneSource (g := .pcOut) (by decide) (h.assert (by decide) (by decide)) hc,
    microStep_oneSource (g := .irOut) (by decide) (h.assert (by decide) (by decide)) hc⟩

/-- Settles O29: the one source of the word is the ALU; with it in the word, FLAGS_IN needs no parameter. -/
theorem aluSourceDrivesTheResult : Obligations.AluSourceDrivesTheResult := by
  unfold Obligations.AluSourceDrivesTheResult
  intro o s k hp hram hhalt hc
  exact microStep_oneSource (g := .aluOut) (by decide) ⟨hp, hhalt, .inr (.inl rfl), hram⟩ hc

/-- Settles O30: the next state is the latches at the one bus value, whatever its sources (`microStep_next`,
`latch_effect`). -/
theorem everySinkLatchesTheBusValue : Obligations.EverySinkLatchesTheBusValue := by
  unfold Obligations.EverySinkLatchesTheBusValue
  refine ⟨by decide, fun o s k h hc => ?_⟩
  have heffect := latch_effect o k (busValue o (countCycle s)) h.ram
  refine ⟨_, (exec_ofSignals o s).trans (microStep_next h hc), ?_⟩
  rw [heffect.bus]
  refine ⟨heffect.mar, heffect.ir, heffect.a, heffect.b, heffect.ram, fun hf => ⟨?_, ?_⟩⟩
  · simpa [hf] using heffect.flagC
  · simpa [hf] using heffect.flagZ

/-- A signal that is no source, at the head of a word without a source. -/
theorem microStep_assert_noSource {o : SignalSet} {s : State} {k : Fin 3} {g : Signal} (hg : g ∉ Signal.sources)
    (h : Ready (o.assert g) k s) (hc : o.sourceCount = 0) :
    ∃ t, microStep (o.assert g) s = .next t ∧ MicroStepEffect (o.assert g) k s.bus s t :=
  microStep_noSource h ((SignalSet.sourceCount_congr (SignalSet.get_assert_source hg o)).trans hc)

/-- Settles O31: none of the five is a source. -/
theorem sinkWithoutSourceLatchesTheKeptBus : Obligations.SinkWithoutSourceLatchesTheKeptBus := by
  unfold Obligations.SinkWithoutSourceLatchesTheKeptBus
  intro o s k h hc
  have hsink : ∀ {g : Signal}, g ∉ Signal.sources → g ≠ .halt → g ≠ .flagsIn →
      ∃ t, microStep (o.assert g) s = .next t ∧ MicroStepEffect (o.assert g) k s.bus s t :=
    fun hg hhalt hflags => microStep_assert_noSource hg (h.assert hhalt hflags) hc
  exact ⟨hsink (g := .marIn) (by decide) (by decide) (by decide),
    hsink (g := .ramIn) (by decide) (by decide) (by decide), hsink (g := .irIn) (by decide) (by decide) (by decide),
    hsink (g := .aIn) (by decide) (by decide) (by decide), hsink (g := .bIn) (by decide) (by decide) (by decide)⟩

end Sys2Proof.Machine
end

section
/-! ### PC_INC, ALU_SUB and FLAGS_IN (42_signal_execution.md §5; 43_alu_flags.md §3) -/

namespace Sys2Proof.Machine

/-- A signal that is no source reaches the bus only through what the asserted sources drive. -/
theorem busValue_assert_eq_drop {g : Signal} (hg : g ∉ Signal.sources) {o : SignalSet} {s : State}
    (hv : ∀ x ∈ assertedSources o, sourceValue (o.assert g) s x = sourceValue (o.drop g) s x) :
    busValue (o.assert g) s = busValue (o.drop g) s := by
  have hdrop := SignalSet.get_drop_source hg o
  refine busValue_congr (fun x hx => (SignalSet.get_assert_source hg o x hx).trans (hdrop x hx).symm) fun x hx => ?_
  rw [assertedSources_congr hdrop] at hx
  exact hv x hx

/-- A word that completes with and without a signal that is no source and changes no driven value: both next states
latch the same bus value, at the same free choice (log 10). -/
theorem microStep_assert_drop {g : Signal} (hg : g ∉ Signal.sources) {o : SignalSet} {s : State} {k : Fin 3}
    (hassert : Ready (o.assert g) k s) (hdrop : Ready (o.drop g) k s)
    (hc : o.sourceCount ≤ 1 ∨ s.cfg.contention = .anyAssertedSource)
    (hv : ∀ x, sourceValue (o.assert g) (countCycle s) x = sourceValue (o.drop g) (countCycle s) x) :
    ∃ v, microStep (o.assert g) s = .next (advance k (latch (o.assert g) v (countCycle s))) ∧
      microStep (o.drop g) s = .next (advance k (latch (o.drop g) v (countCycle s))) := by
  have hcAssert := SignalSet.sourceCount_congr (SignalSet.get_assert_source hg o)
  have hcDrop := SignalSet.sourceCount_congr (SignalSet.get_drop_source hg o)
  refine ⟨busValue (o.drop g) (countCycle s), ?_, microStep_next hdrop (hcDrop ▸ hc)⟩
  rw [microStep_next hassert (hcAssert ▸ hc), busValue_assert_eq_drop hg fun x _ => hv x]

/-- Settles O32: PC_INC is no source, and no source reads it; in the latches it moves PC alone. -/
theorem pcIncAddsOneWhateverTheBusDoes : Obligations.PcIncAddsOneWhateverTheBusDoes := by
  unfold Obligations.PcIncAddsOneWhateverTheBusDoes
  refine ⟨by decide, fun o s k h => ?_⟩
  have hready : Ready (o.assert .pcInc) k s := h.assert (by decide) (by decide)
  refine ⟨fun hc => ?pair, fun hc => ?head⟩
  case pair =>
    obtain ⟨v, ht, hu⟩ := microStep_assert_drop (g := .pcInc) (by decide) hready { h with } hc
      fun x => by cases x <;> rfl
    refine ⟨_, _, (exec_ofSignals _ s).trans ht, (exec_ofSignals _ s).trans hu, ?_, ?_, ?_⟩
    · rw [advance_pc]
      exact BitVec.toNat_add s.pc 1
    · rw [advance_pc]
      rfl
    · rw [advance_eq, advance_eq]
      rfl
  case head =>
    obtain ⟨t, ht, heffect⟩ := microStep_assert_noSource (g := .pcInc) (by decide) hready hc
    refine ⟨t, ht, ?_, heffect.bus, fun hf => ⟨?_, ?_⟩⟩
    · rw [heffect.pc]
      exact BitVec.toNat_add s.pc 1
    · rw [heffect.flagC, show (o.assert .pcInc).flagsIn = false from hf]
      rfl
    · rw [heffect.flagZ, show (o.assert .pcInc).flagsIn = false from hf]
      rfl

/-- In a word with neither ALU_OUT nor FLAGS_IN nothing reads ALU_SUB, whether the word completes or stops. -/
theorem executeSet_aluSub {o : SignalSet} (haluOut : o.aluOut = false) (hflags : o.flagsIn = false) (k : Fin 3)
    (s : State) : executeSet (o.assert .aluSub) k s = executeSet (o.drop .aluSub) k s := by
  have hsources : assertedSources (o.assert .aluSub) = assertedSources (o.drop .aluSub) := rfl
  have hbus : busValue (o.assert .aluSub) s = busValue (o.drop .aluSub) s :=
    busValue_assert_eq_drop (by decide) fun x hx => by
      have hne : x ≠ .aluOut := by
        rintro rfl
        exact absurd (mem_assertedSources.1 hx).2 (by simp [SignalSet.get, haluOut])
      cases x
      case aluOut => exact absurd rfl hne
      all_goals rfl
  have hlatch : ∀ v, latch (o.assert .aluSub) v s = latch (o.drop .aluSub) v s := fun v => by
    have hC : nextFlagC (o.assert .aluSub) s = nextFlagC (o.drop .aluSub) s := by
      rw [nextFlagC_of_no_flagsIn s (o := o.assert .aluSub) hflags,
        nextFlagC_of_no_flagsIn s (o := o.drop .aluSub) hflags]
    have hZ : nextFlagZ (o.assert .aluSub) s = nextFlagZ (o.drop .aluSub) s := by
      rw [nextFlagZ_of_no_flagsIn s (o := o.assert .aluSub) hflags,
        nextFlagZ_of_no_flagsIn s (o := o.drop .aluSub) hflags]
    rw [latch, hC, hZ]
    rfl
  unfold executeSet applySignals
  rw [hsources, hbus, hlatch]
  rfl

/-- Settles O33: nothing but the ALU reads ALU_SUB, and nothing but ALU_OUT and FLAGS_IN reads the ALU. -/
theorem aluSubOnlySelectsSubtraction : Obligations.AluSubOnlySelectsSubtraction := by
  unfold Obligations.AluSubOnlySelectsSubtraction
  intro o s k hp
  refine ⟨fun haluOut hflags => ?noEffect, fun h hc => ?head, fun h hc hsub => ?difference⟩
  case noEffect =>
    rw [exec_ofSignals, exec_ofSignals]
    simp only [microStep, hp]
    exact executeSet_aluSub haluOut hflags k (countCycle s)
  case head => exact microStep_assert_noSource (g := .aluSub) (by decide) (h.assert (by decide) (by decide)) hc
  case difference =>
    obtain ⟨t, ht, heffect⟩ :=
      microStep_oneSource (g := .aluOut) (by decide) (h.assert (by decide) (by decide)) hc
    refine ⟨t, ht, heffect.bus.trans ?_⟩
    rw [show (o.assert .aluOut).aluSub = true from hsub]
    rfl

/-- Settles O34: FLAGS_IN is no source, and no source reads it; in the latches it sets the flags alone. -/
theorem flagsInLatchesTheAluOfTheSameWord : Obligations.FlagsInLatchesTheAluOfTheSameWord := by
  unfold Obligations.FlagsInLatchesTheAluOfTheSameWord
  refine ⟨by decide, fun o s k h hc halu => ?_⟩
  obtain ⟨v, ht, hu⟩ := microStep_assert_drop (g := .flagsIn) (by decide) { h with flags := .inr (.inl halu) }
    { h with flags := .inl rfl } hc fun x => by cases x <;> rfl
  refine ⟨_, _, (exec_ofSignals _ s).trans ht, (exec_ofSignals _ s).trans hu, ?_, ?_, ?_⟩
  · rw [advance_flagC]
    rfl
  · rw [advance_flagZ]
    rfl
  · rw [advance_eq, advance_eq]
    rfl

/-- A word that may not latch flags is refused (43_alu_flags.md R177), whatever its sources (log 18). -/
theorem microStep_refused {o : SignalSet} {s : State} {k : Fin 3} (hp : s.phase = .execute k) (hhalt : o.halt = false)
    (hf : ¬ FlagsAllowed o s) : microStep o s = .refused .flagsInWithoutAluOut := by
  simp only [microStep, hp, executeSet, hhalt, applySignals]
  have hrefused : flagsRefused o (countCycle s).cfg = true := (flagsRefused_iff o s).2 hf
  rw [if_pos hrefused]
  rfl

/-- Settles O35: the parameter decides whether FLAGS_IN without ALU_OUT is a word that may run. -/
theorem flagsInWithoutAluOutFollowsTheParameter : Obligations.FlagsInWithoutAluOutFollowsTheParameter := by
  unfold Obligations.FlagsInWithoutAluOutFollowsTheParameter
  intro o s k hp hram hhalt halu hc
  refine ⟨fun hcfg => ?latch, fun hcfg => ?refuse⟩
  case latch => exact microStep_assert_noSource (g := .flagsIn) (by decide) ⟨hp, hhalt, .inr (.inr hcfg), hram⟩ hc
  case refuse =>
    refine microStep_refused (o := o.assert .flagsIn) hp hhalt ?_
    rintro (hf | hf | hf)
    · cases hf
    · exact Bool.false_ne_true (halu.symm.trans hf)
    · simp [hcfg] at hf

end Sys2Proof.Machine
end

section
/-! ### HALT, contention and IR_IN (41_sequencer.md §3; 42_signal_execution.md §2) -/

namespace Sys2Proof.Machine

/-- A word with HALT only halts (41_sequencer.md R125). -/
theorem microStep_halt {o : SignalSet} {s : State} {k : Fin 3} (hp : s.phase = .execute k) (hhalt : o.halt = true) :
    microStep o s = .next (enterHalted (countCycle s)) := by
  simp only [microStep, hp, executeSet, hhalt, if_true]

/-- Settles O36: HALT is tested before any other signal of the word. -/
theorem haltAppliesNothingElse : Obligations.HaltAppliesNothingElse := by
  unfold Obligations.HaltAppliesNothingElse
  intro o s k hp
  exact microStep_halt (o := o.assert .halt) hp rfl

/-- Two sources under CONTENTION = fault (42_signal_execution.md R143). -/
theorem microStep_fault {o : SignalSet} {s : State} {k : Fin 3} (hp : s.phase = .execute k) (hhalt : o.halt = false)
    (hf : FlagsAllowed o s) (hc : 2 ≤ o.sourceCount) (hcfg : s.cfg.contention = .fault) :
    microStep o s = .fault (.busContention s.ir k (assertedSources o)) := by
  have hrefused : ¬ flagsRefused o (countCycle s).cfg = true := fun hr => (flagsRefused_iff o s).1 hr hf
  simp only [microStep, hp, executeSet, hhalt, applySignals]
  rw [if_neg hrefused]
  simp [contends_iff, hc, hcfg]

/-- Settles O38: the fault with its record, or the effect of the word at the value of a freely chosen asserted
source. -/
theorem twoSourcesFollowTheContentionParameter : Obligations.TwoSourcesFollowTheContentionParameter := by
  unfold Obligations.TwoSourcesFollowTheContentionParameter
  intro o s k h hc
  refine ⟨fun hcfg => (exec_ofSignals o s).trans (microStep_fault h.phase h.noHalt h.flags hc hcfg), fun hcfg => ?_⟩
  obtain ⟨t, x, ht, hx, heffect⟩ := microStep_contends h hcfg hc
  obtain ⟨hsource, hget⟩ := mem_assertedSources.1 hx
  rw [sourceValue_eq_drivenValue] at heffect
  exact ⟨t, x, (exec_ofSignals o s).trans ht, hsource, hget, heffect⟩

/-- Settles O40: IR takes the bus value, and the next step reads the ROM at the new IR. -/
theorem irInRedirectsTheRestOfTheInstruction : Obligations.IrInRedirectsTheRestOfTheInstruction := by
  unfold Obligations.IrInRedirectsTheRestOfTheInstruction
  intro s t k hp hk hir hhalt h
  rw [step_eq_edge fun h0 => by simp [hp] at h0] at h
  obtain ⟨hrom, hcfg, -, -⟩ := edge_const h
  rcases edge_execute_next hp h with ⟨hyes, -⟩ | ⟨-, ht⟩
  · simp [hhalt] at hyes
  · have hphase : t.phase = .execute (k + 1) := by simp [ht, hk]
    have htir : t.ir = t.bus := by simp [ht, hir]
    simp only [fetchInstr, hphase, htir, hrom, hcfg, romAddress, executeStep_succ_val k hk]

end Sys2Proof.Machine
end

section
/-! ### The ALU: subtraction and the zero output (43_alu_flags.md R172, R175; D16, D27) -/

namespace Sys2Proof.Machine

theorem byte_sub_eq_zero (a b : Byte) : a - b = 0#8 ↔ a = b := sub_eq_zero

/-- A masked sum is 0 exactly when the sum of the operands is 0 or wraps once to 0. -/
theorem byte_add_eq_zero (a b : Byte) : a + b = 0#8 ↔ a.toNat + b.toNat = 0 ∨ a.toNat + b.toNat = 256 := by
  have ha := a.isLt
  have hb := b.isLt
  rw [← BitVec.toNat_inj, BitVec.toNat_add, BitVec.toNat_ofNat]
  omega

/-- Settles O52: the ALU's difference, borrow and zero as bit-vector arithmetic (`aluResult_sub`, `aluCarry_sub`,
`aluZero_eq`); a borrow is `a < b`, a zero difference `a = b`. -/
theorem subtractionBorrowsAndZeroIsMasked : Obligations.SubtractionBorrowsAndZeroIsMasked := by
  unfold Obligations.SubtractionBorrowsAndZeroIsMasked
  intro a b
  have hcarry : aluCarry true a b = true ↔ a.toNat < b.toNat := by rw [aluCarry_sub, decide_eq_true_iff]
  have hzero : aluZero true a b = true ↔ a = b := by
    rw [aluZero_eq, decide_eq_true_iff]
    exact byte_sub_eq_zero a b
  refine ⟨?difference, hcarry, hzero, ?sumZero, ?exclusive⟩
  case difference =>
    have hb := b.isLt
    rw [aluResult_sub, BitVec.toNat_sub]
    omega
  case sumZero =>
    rw [aluZero_eq, decide_eq_true_iff]
    exact byte_add_eq_zero a b
  case exclusive =>
    rw [hcarry, hzero]
    rintro ⟨hlt, rfl⟩
    exact Nat.lt_irrefl _ hlt

end Sys2Proof.Machine
end

section
/-! ### Macro-instructions with their row's microcode in the ROM (44_macro_instructions.md R189 to R198, D2) -/

namespace Sys2Proof.Machine

/-- Settles O43: the three words of these rows assert no signal. -/
theorem zeroMicrocodeOpcodesAreNops : Obligations.ZeroMicrocodeOpcodesAreNops := by
  unfold Obligations.ZeroMicrocodeOpcodesAreNops
  intro s i op hmem hp hm
  have hrow : ∀ r ∈ [(Instr.nop, 0x00#8), (.nop05, 0x05#8), (.nop07, 0x07#8), (.nop0C, 0x0C#8), (.nop0D, 0x0D#8),
      (.nop0E, 0x0E#8)], r.1.opcode = some r.2 ∧ ∀ k, microcode r.2 k = {} := by decide
  obtain ⟨hop, hwords⟩ := hrow _ hmem
  rw [exec_of_opcode hop]
  exact macroInstruction_noSignal hp fun k => (hm k).trans (hwords k)

/-- The first word of a row runs on the fetched state; the rest of the instruction follows it, or its stop ends it. -/
theorem exec_of_first_word {i : Instr} {op : Byte} {s : State} (hop : i.opcode = some op) (hp : s.phase = .fetch0)
    (hm : HoldsMicrocode op s) :
    exec i s = andThen (andThen (microStep (microcode op 0) (fetched op s)) edge) edge := by
  rw [exec_of_opcode hop, macroInstruction_fetched op hp, edge_execute (s := fetched op s) (k := 0) rfl,
    currentSignals_of_microcode (u := fetched op s) hm rfl rfl rfl 0]

/-- Settles O44: step 0 halts, and the last two edges of the macro-instruction change nothing. -/
theorem hltHaltsAfterThreeMicroCycles : Obligations.HltHaltsAfterThreeMicroCycles := by
  unfold Obligations.HltHaltsAfterThreeMicroCycles
  intro s hp hm
  have hhalt : microStep (microcode 0x01#8 0) (fetched 0x01#8 s) =
      .next (enterHalted (countCycle (fetched 0x01#8 s))) :=
    microStep_halt rfl rfl
  have hstay := edge_halted (enterHalted_phase (countCycle (fetched 0x01#8 s)))
  rw [exec_of_first_word rfl hp hm, hhalt, andThen_next, hstay, andThen_next, hstay, fetched_eq]
  rfl

/-- The state after an Execute micro-step of a word without contention, as one record update. -/
theorem afterWord_eq {o : SignalSet} (hc : o.sourceCount ≤ 1) (k : Fin 3) (s : State) :
    afterWord o k s = { s with
      bus := drivenValue o s
      mar := if o.marIn then lowNibble (drivenValue o s) else s.mar
      ram := if o.ramIn then writeByte s.ram s.mar (drivenValue o s) else s.ram
      ir := if o.irIn then drivenValue o s else s.ir
      a := if o.aIn then drivenValue o s else s.a
      b := if o.bIn then drivenValue o s else s.b
      flagC := if o.flagsIn then carryOf o s else s.flagC
      flagZ := if o.flagsIn then zeroOf o s else s.flagZ
      pc := if o.pcInc then s.pc + 1 else s.pc
      phase := if k = 2 then .fetch0 else .execute (k + 1)
      cycles := s.cycles + 1
      instructions := if k = 2 then s.instructions + 1 else s.instructions } := by
  have hcontends : contends o = false := by
    rw [contends_iff]
    exact decide_eq_false (by omega)
  have hC : nextFlagC o (countCycle s) = if o.flagsIn then carryOf o s else s.flagC := nextFlagC_eq o (countCycle s)
  have hZ : nextFlagZ o (countCycle s) = if o.flagsIn then zeroOf o s else s.flagZ := nextFlagZ_eq o (countCycle s)
  rw [afterWord, advance_eq, latch, hcontends, hC, hZ]
  rfl

/-- A macro-instruction whose row has no HALT, no IR_IN and no contention is its three words after the fetch. -/
theorem exec_of_microcode {i : Instr} {op : Byte} {s : State} (o0 o1 o2 : SignalSet) (hop : i.opcode = some op)
    (hrow : ∀ k, microcode op k = [o0, o1, o2].get k)
    (hw : ∀ o ∈ [o0, o1, o2], o.halt = false ∧ o.irIn = false ∧ o.sourceCount ≤ 1)
    (hf : ∀ o ∈ [o0, o1, o2], FlagsAllowed o s) (hp : s.phase = .fetch0) (hm : HoldsMicrocode op s) :
    exec i s = .next (afterWord o2 2 (afterWord o1 1 (afterWord o0 0 (fetched op s)))) := by
  have hmem : ∀ k, microcode op k ∈ [o0, o1, o2] := fun k => by
    rw [hrow]
    exact List.get_mem _ _
  rw [exec_of_opcode hop, macroInstruction_of_microcode hp hm (fun k => hw _ (hmem k)) fun k => hf _ (hmem k), hrow 0,
    hrow 1, hrow 2]
  rfl

/-- The rows without FLAGS_IN, or with ALU_OUT beside it, need no parameter. -/
theorem flagsAllowed_of_row {row : List SignalSet} (h : ∀ o ∈ row, o.flagsIn = false ∨ o.aluOut = true) (s : State) :
    ∀ o ∈ row, FlagsAllowed o s := fun o ho => (h o ho).imp_right .inl

/-- Settles O45: the three words of each row, one after another. -/
theorem loadsTakeTheOperandByteOrTheByteItNames : Obligations.LoadsTakeTheOperandByteOrTheByteItNames := by
  unfold Obligations.LoadsTakeTheOperandByteOrTheByteItNames
  intro s hp
  have ldiA := exec_of_microcode (i := .ldiA) { pcOut := true, marIn := true }
    { ramOut := true, aIn := true, pcInc := true } {}
    rfl (by decide) (by decide) (flagsAllowed_of_row (by decide) s) hp
  have ldiB := exec_of_microcode (i := .ldiB) { pcOut := true, marIn := true }
    { ramOut := true, bIn := true, pcInc := true } {}
    rfl (by decide) (by decide) (flagsAllowed_of_row (by decide) s) hp
  have lda := exec_of_microcode (i := .lda) { pcOut := true, marIn := true }
    { ramOut := true, marIn := true, pcInc := true } { ramOut := true, aIn := true }
    rfl (by decide) (by decide) (flagsAllowed_of_row (by decide) s) hp
  refine ⟨fun hm => (ldiA hm).trans ?_, fun hm => (ldiB hm).trans ?_, fun hm => (lda hm).trans ?_⟩
  all_goals simp [afterWord_eq, SignalSet.sourceCount_eq, fetched_eq, drivenValue, lowNibble, BitVec.add_assoc, hp]

/-- STA is its three words, one after another: the store is at the address the operand byte names. -/
theorem exec_sta {s : State} (hp : s.phase = .fetch0) (hm : HoldsMicrocode 0x06#8 s) :
    exec .sta s = .next { s with
      ram := writeByte s.ram ((readByte s.ram (s.pc + 1)).setWidth 4) s.a, bus := s.a,
      mar := (readByte s.ram (s.pc + 1)).setWidth 4, ir := 0x06#8, pc := s.pc + 2,
      instructions := s.instructions + 1, cycles := s.cycles + 5 } := by
  rw [exec_of_microcode { pcOut := true, marIn := true } { ramOut := true, marIn := true, pcInc := true }
    { aOut := true, ramIn := true } rfl (by decide) (by decide) (flagsAllowed_of_row (by decide) s) hp hm]
  simp [afterWord_eq, SignalSet.sourceCount_eq, fetched_eq, drivenValue, lowNibble, BitVec.add_assoc, hp]

/-- Settles O46: the store of `exec_sta`, read back byte by byte. -/
theorem staStoresAAtTheOperandAddress : Obligations.StaStoresAAtTheOperandAddress := by
  unfold Obligations.StaStoresAAtTheOperandAddress
  intro s hp hram hm
  exact ⟨_, exec_sta hp hm, rfl, readByte_writeByte_same hram _ _, fun x hx => readByte_writeByte_other _ _ hx⟩

/-- Settles O47: step 0 of each row is the ALU word, the other two only advance. -/
theorem addAndSubLatchResultAndFlags : Obligations.AddAndSubLatchResultAndFlags := by
  unfold Obligations.AddAndSubLatchResultAndFlags
  intro s hp
  refine ⟨fun hm => ?add, fun hm => ?sub⟩
  case add =>
    rw [exec_of_microcode { aluOut := true, aIn := true, flagsIn := true } {} {} rfl (by decide) (by decide)
      (flagsAllowed_of_row (by decide) s) hp hm]
    simp [afterWord_eq, SignalSet.sourceCount_eq, fetched_eq, drivenValue, carryOf, zeroOf, hp]
  case sub =>
    rw [exec_of_microcode { aluOut := true, aluSub := true, aIn := true, flagsIn := true } {} {} rfl (by decide)
      (by decide) (flagsAllowed_of_row (by decide) s) hp hm]
    simp [afterWord_eq, SignalSet.sourceCount_eq, fetched_eq, drivenValue, carryOf, zeroOf, byte_sub_eq_zero, hp]

/-- Settles O48: step 0 puts A on the bus, the other two words only advance. -/
theorem outPutsAOnTheBus : Obligations.OutPutsAOnTheBus := by
  unfold Obligations.OutPutsAOnTheBus
  intro s hp hm
  rw [exec_of_microcode { aOut := true } {} {} rfl (by decide) (by decide) (flagsAllowed_of_row (by decide) s) hp hm]
  simp [afterWord_eq, SignalSet.sourceCount_eq, fetched_eq, drivenValue, hp]

/-- Settles O49: step 0 latches the flags of A - B with the bus kept, or is refused; the other two words only
advance. -/
theorem cmpChangesOnlyTheFlags : Obligations.CmpChangesOnlyTheFlags := by
  unfold Obligations.CmpChangesOnlyTheFlags
  intro s hp hm
  refine ⟨fun hcfg => ?latch, fun hcfg => ?refuse⟩
  case latch =>
    rw [exec_of_microcode { aluSub := true, flagsIn := true } {} {} rfl (by decide) (by decide)
      (fun _ _ => .inr (.inr hcfg)) hp hm]
    simp [afterWord_eq, SignalSet.sourceCount_eq, fetched_eq, drivenValue, carryOf, zeroOf, byte_sub_eq_zero, hp]
  case refuse =>
    have hf : ¬ FlagsAllowed (microcode 0x0A#8 0) (fetched 0x0A#8 s) := by
      rintro (hf | hf | hf)
      · cases hf
      · cases hf
      · exact absurd (hcfg.symm.trans hf) (by decide)
    rw [exec_of_first_word rfl hp hm, microStep_refused rfl rfl hf, andThen_refused, andThen_refused]

/-- Two sources under CONTENTION = any-asserted-source: the latches at a freely chosen source's value (R143). -/
theorem microStep_anyAssertedSource {o : SignalSet} {s : State} {k : Fin 3} (hp : s.phase = .execute k)
    (hhalt : o.halt = false) (hf : FlagsAllowed o s) (hcfg : s.cfg.contention = .anyAssertedSource) :
    microStep o s = .next (advance k (latch o (busValue o (countCycle s)) (countCycle s))) := by
  have hrefused : ¬ flagsRefused o (countCycle s).cfg = true := fun hr => (flagsRefused_iff o s).1 hr hf
  simp only [microStep, hp, executeSet, hhalt, applySignals]
  rw [if_neg hrefused]
  simp [hcfg]

/-- Two words that assert no signal, at steps 1 and 2: they only count and complete the instruction. -/
theorem edges_two_noSignal {u : State} (hp : u.phase = .execute 1) (h1 : currentSignals u 1 = {})
    (h2 : currentSignals u 2 = {}) :
    andThen (edge u) edge = .next { u with
      phase := .fetch0, cycles := u.cycles + 2, instructions := u.instructions + 1 } := by
  have hsecond := edge_noSignal (s := advance 1 (countCycle u)) (k := 2) rfl h2
  rw [edge_noSignal hp h1, andThen_next, hsecond]
  rfl

/-- The state after step 0 of BAD, the bus at `v`. -/
theorem latch_bad (v : Byte) (s : State) :
    advance 0 (latch (microcode 0x0B#8 0) v (countCycle (fetched 0x0B#8 s))) = { s with
      bus := v, mar := s.pc, ir := 0x0B#8, pc := s.pc + 1, phase := .execute 1, cycles := s.cycles + 3,
      freeCount := s.freeCount + 1 } := by
  rw [fetched_eq]
  rfl

/-- Settles O50: step 0 contends for the bus, and faults or completes with A or B; then the other two words only
advance. -/
theorem badContendsForTheBus : Obligations.BadContendsForTheBus := by
  unfold Obligations.BadContendsForTheBus
  intro s hp hm
  have hf : FlagsAllowed (microcode 0x0B#8 0) (fetched 0x0B#8 s) := .inl rfl
  rw [exec_of_first_word rfl hp hm]
  refine ⟨fun hcfg => ?fault, fun hcfg => ?anyAssertedSource⟩
  case fault =>
    rw [microStep_fault rfl rfl hf (by decide) hcfg, andThen_fault, andThen_fault]
    rfl
  case anyAssertedSource =>
    obtain ⟨x, hx, hv⟩ := busValue_of_contention (o := microcode 0x0B#8 0) (countCycle (fetched 0x0B#8 s)) (by decide)
    have hab : ∀ x ∈ assertedSources (microcode 0x0B#8 0), x = .aOut ∨ x = .bOut := by decide
    refine ⟨sourceValue (microcode 0x0B#8 0) (countCycle (fetched 0x0B#8 s)) x, ?_, ?_⟩
    · rcases hab x hx with rfl | rfl
      · exact .inl rfl
      · exact .inr rfl
    · rw [microStep_anyAssertedSource rfl rfl hf hcfg, hv, latch_bad, andThen_next, edges_two_noSignal, hp]
      case hp => rfl
      case h1 => exact hm 1
      case h2 => exact hm 2

end Sys2Proof.Machine
end

section
/-! ### Memories and the ROM image (20_memory.md §2, §3; 30_encoding.md §3) -/

namespace Sys2Proof.Machine

/-- A canonical RAM is fixed by its 16 bytes: beyond them it reads the default. -/
theorem memory_ext {m n : Memory} (hm : Memory.wf m = true) (hn : Memory.wf n = true)
    (h : ∀ x, readByte m x = readByte n x) : m = n := by
  refine Cells.ext hm hn fun a => ?_
  by_cases ha : a < 16
  · have hread := h (BitVec.ofNat 4 a)
    have haddr : (BitVec.ofNat 4 a).toNat = a := Nat.mod_eq_of_lt ha
    rwa [readByte, readByte, haddr] at hread
  · rw [Cells.read_beyond hm (by omega), Cells.read_beyond hn (by omega)]

/-- Settles O53: the laws of cell lists at RAM's 16 addresses. -/
theorem memWriteSetsOneByteOfACanonicalRam : Obligations.MemWriteSetsOneByteOfACanonicalRam := by
  unfold Obligations.MemWriteSetsOneByteOfACanonicalRam
  refine ⟨fun m a v hm => ?_, fun m n hm hn h => memory_ext hm hn h⟩
  exact ⟨readByte_writeByte_same hm a v, fun x hx => readByte_writeByte_other m v hx, writeByte_wf hm a v⟩

/-- Below opcode 0x10 the word address is one of the 128 (R55, R85). -/
theorem romRead_in_range (r : Rom) {op : Byte} (k : Fin 3) (h : op.toNat < 16) :
    romRead r (romAddress op k) = Cells.read 0#16 r (8 * op.toNat + k.val) := by
  rw [romRead, romAddress_toNat, if_pos (by omega)]

/-- Settles O54. -/
theorem romAddressIsNotTruncated : Obligations.RomAddressIsNotTruncated := by
  unfold Obligations.RomAddressIsNotTruncated
  intro r op k
  exact ⟨romAddress_toNat op k, romRead_out_of_range r k, romRead_in_range r k⟩

section Tabulate

variable {α : Type} [DecidableEq α] {d : α}

/-- The cell list of a function on the addresses `lo` to `lo + n - 1`, default values not listed: the form in which
`romOfImage` builds the ROM. -/
def Cells.tabulate (d : α) (f : Nat → α) (lo n : Nat) : List (Nat × α) :=
  (List.range' lo n).filterMap fun k => if f k = d then none else some (k, f k)

theorem Cells.tabulate_zero (f : Nat → α) (lo : Nat) : Cells.tabulate d f lo 0 = [] := rfl

theorem Cells.tabulate_succ (f : Nat → α) (lo n : Nat) :
    Cells.tabulate d f lo (n + 1) =
      if f lo = d then Cells.tabulate d f (lo + 1) n else (lo, f lo) :: Cells.tabulate d f (lo + 1) n := by
  by_cases h : f lo = d <;> simp [Cells.tabulate, List.range'_succ, h]

theorem Cells.tabulate_wf {bound : Nat} (f : Nat → α) (lo n : Nat) (hb : lo + n ≤ bound) :
    Cells.wfFrom d bound lo (Cells.tabulate d f lo n) = true := by
  induction n generalizing lo with
  | zero => rfl
  | succ n ih =>
    have hrest := ih (lo + 1) (by omega)
    rw [Cells.tabulate_succ]
    split
    case isTrue => exact Cells.wfFrom_mono hrest (by omega)
    case isFalse h =>
      have hlo : lo < bound := by omega
      simp [Cells.wfFrom, hrest, h, hlo]

theorem Cells.read_tabulate (f : Nat → α) (lo n k : Nat) (hlo : lo ≤ k) (hk : k < lo + n) :
    Cells.read d (Cells.tabulate d f lo n) k = f k := by
  induction n generalizing lo with
  | zero => omega
  | succ n ih =>
    have hbelow : Cells.read d (Cells.tabulate d f (lo + 1) n) lo = d :=
      Cells.read_below (Cells.tabulate_wf f (lo + 1) n le_rfl) (Nat.lt_succ_self lo)
    rw [Cells.tabulate_succ]
    by_cases hfirst : k = lo
    · subst hfirst
      split
      case isTrue h => rw [hbelow, h]
      case isFalse => simp [Cells.read]
    · have hrest := ih (lo + 1) (by omega) (by omega)
      split
      case isTrue => exact hrest
      case isFalse => rw [Cells.read, if_neg (Ne.symm hfirst), hrest]

end Tabulate

theorem romOfImage_of_length {image : List Byte} (h : image.length = 256) :
    romOfImage image = some (Cells.tabulate 0#16 (imageWord image) 0 128) := by
  rw [romOfImage, if_pos h, List.range_eq_range']
  rfl

/-- A word of the image is its two bytes, the low one first (R56). -/
theorem imageWord_toNat (image : List Byte) (k : Nat) :
    (imageWord image k).toNat = (image.getD (2 * k) 0#8).toNat + 256 * (image.getD (2 * k + 1) 0#8).toNat := by
  rw [imageWord, BitVec.toNat_append, ← Nat.shiftLeft_add_eq_or_of_lt (BitVec.isLt _), Nat.shiftLeft_eq]
  omega

/-- Settles O56: the ROM of an image lists its words that are not 0x0000, in canonical form. -/
theorem romImageIsLittleEndianPairs : Obligations.RomImageIsLittleEndianPairs := by
  unfold Obligations.RomImageIsLittleEndianPairs
  intro image
  refine ⟨fun h => if_neg h, fun h => ⟨_, romOfImage_of_length h, Cells.tabulate_wf _ _ _ le_rfl, fun k hk => ?_⟩⟩
  rw [Cells.read_tabulate _ _ _ _ (Nat.zero_le k) (by omega), imageWord_toNat]

/-- Settles O2: the default launch values and parameters; a RAM that lists nothing reads 0x00 everywhere. -/
theorem resetLeavesTheDecidedZeros : Obligations.ResetLeavesTheDecidedZeros := by
  unfold Obligations.ResetLeavesTheDecidedZeros
  exact ⟨rfl, rfl, rfl, rfl, rfl, rfl, rfl, rfl, rfl, fun _ => rfl, rfl⟩

end Sys2Proof.Machine
end

section
/-! ### The Clock: step() and tick() (60_exceptions.md R223 to R229; logs 15, 19 to 21) -/

namespace Sys2Proof.Machine

/-- A rising edge: one micro-cycle for each core `Step` among the callbacks, then the level is high. -/
theorem risingEdge_eq (s : State) :
    risingEdge s = andThen (edges (s.clock.rising.count .coreStep) s) fun t =>
      .next { t with clock := { s.clock with level := .high } } := by
  rw [risingEdge, fireAll_eq_edges]
  exact andThen_edges_congr _ s fun t ht => by rw [ht]

/-- A falling edge: likewise, then the level is low and the public count one higher. -/
theorem fallingEdge_eq (s : State) :
    fallingEdge s = andThen (edges (s.clock.falling.count .coreStep) s) fun t =>
      .next { t with clock := { s.clock with level := .low, clkCycles := s.clock.clkCycles + 1 } } := by
  rw [fallingEdge, fireAll_eq_edges]
  exact andThen_edges_congr _ s fun t ht => by rw [ht]

theorem risingEdge_clock {s t : State} (h : risingEdge s = .next t) : t.clock = { s.clock with level := .high } := by
  rw [risingEdge_eq] at h
  obtain ⟨u, -, hu⟩ := andThen_eq_next h
  cases hu
  rfl

theorem fallingEdge_clock {s t : State} (h : fallingEdge s = .next t) :
    t.clock = { s.clock with level := .low, clkCycles := s.clock.clkCycles + 1 } := by
  rw [fallingEdge_eq] at h
  obtain ⟨u, -, hu⟩ := andThen_eq_next h
  cases hu
  rfl

theorem count_coreStep_observers (ids : List Nat) : (ids.map Callback.observer).count .coreStep = 0 :=
  List.count_eq_zero.2 (by simp)

/-- In Manual mode the Clock's step(). -/
theorem clockStep_manual (failing : Nat → Bool) {s : State} (h : s.clock.mode = .manual) :
    clockStep failing s =
      { fired := true
        notices := s.clock.risingNotices ++ s.clock.fallingNotices
        reported := failures failing (s.clock.rising ++ s.clock.falling)
        outcome := andThen (risingEdge s) fallingEdge } := by
  simp only [clockStep, h]

/-- Settles O57: step() is a rising, then a falling edge; with one core `Step` among observers the rising edge is one
micro-cycle, and the falling edge none. -/
theorem manualClockStepIsOneMicroCycle : Obligations.ManualClockStepIsOneMicroCycle := by
  unfold Obligations.ManualClockStepIsOneMicroCycle
  intro failing s hmode
  rw [clockStep_manual failing hmode]
  refine ⟨rfl, rfl, fun t h => ?clock, fun before after falling hrising hfalling => ?oneMicroCycle⟩
  case clock =>
    obtain ⟨u, hu, ht⟩ := andThen_eq_next h
    rw [fallingEdge_clock ht, risingEdge_clock hu]
  case oneMicroCycle =>
    have hone : s.clock.rising.count .coreStep = 1 := by
      rw [hrising, List.count_append, List.count_append, count_coreStep_observers, count_coreStep_observers]
      rfl
    have hnone : s.clock.falling.count .coreStep = 0 := by rw [hfalling, count_coreStep_observers]
    rw [risingEdge_eq, hone, edges_one, andThen_assoc]
    refine congrArg (andThen (edge s)) (funext fun t => ?_)
    rw [andThen_next, fallingEdge_eq, hnone]
    rfl

/-- A tick() that is due at level low. -/
theorem clockTick_low (failing : Nat → Bool) {now : Rat} {s : State} (h : s.clock.tickFires now = true)
    (hl : s.clock.level = .low) :
    clockTick failing now s =
      { fired := true
        notices := s.clock.risingNotices
        reported := failures failing s.clock.rising
        outcome := andThen (risingEdge s) fun t => .next (moveEdgeRef now t) } := by
  simp only [clockTick, h, hl, if_true]

/-- A tick() that is due at level high. -/
theorem clockTick_high (failing : Nat → Bool) {now : Rat} {s : State} (h : s.clock.tickFires now = true)
    (hl : s.clock.level = .high) :
    clockTick failing now s =
      { fired := true
        notices := s.clock.fallingNotices
        reported := failures failing s.clock.falling
        outcome := andThen (fallingEdge s) fun t => .next (moveEdgeRef now t) } := by
  simp only [clockTick, h, hl, if_true]

/-- A tick() that is not due. -/
theorem clockTick_idle (failing : Nat → Bool) {now : Rat} {s : State} (h : s.clock.tickFires now = false) :
    clockTick failing now s = { fired := false, notices := [], reported := [], outcome := .next s } := by
  simp only [clockTick, h, Bool.false_eq_true, if_false]

theorem clockTick_fired (failing : Nat → Bool) (now : Rat) (s : State) :
    (clockTick failing now s).fired = s.clock.tickFires now := by
  cases h : s.clock.tickFires now with
  | false => rw [clockTick_idle failing h]
  | true =>
    cases hl : s.clock.level with
    | low => rw [clockTick_low failing h hl]
    | high => rw [clockTick_high failing h hl]

theorem tickFires_iff (c : Clock) (now : Rat) :
    c.tickFires now = true ↔ c.mode = .continuous ∧ c.running = true ∧ c.period / 2 ≤ now - c.edgeRef := by
  simp [Clock.tickFires, and_assoc]

/-- Settles O58: the three cases of tick(): not due, due at level low, due at level high; the edge reference is the free
value of log 15. -/
theorem tickFiresTheDueEdge : Obligations.TickFiresTheDueEdge := by
  unfold Obligations.TickFiresTheDueEdge
  intro failing now s
  rw [clockTick_fired]
  refine ⟨tickFires_iff s.clock now, fun h => ?idle, fun h hl => ?low, fun h hl => ?high⟩
  case idle =>
    rw [clockTick_idle failing h]
    exact ⟨rfl, rfl, rfl⟩
  case low =>
    rw [clockTick_low failing h hl, risingEdge_eq, andThen_assoc]
    refine ⟨by rw [← hl]; rfl, Config.edgeRefAfterTick s.clock.edgeRef now s.clock.period, rfl, fun hone => ?_⟩
    rw [hone, edges_one]
    rfl
  case high =>
    rw [clockTick_high failing h hl, fallingEdge_eq, andThen_assoc]
    exact ⟨rfl, Config.edgeRefAfterTick s.clock.edgeRef now s.clock.period, rfl⟩

/-- Neither the outcome nor the notifications of step() and tick() see which observers fail. -/
theorem clockStep_failing (f g : Nat → Bool) (s : State) :
    clockStep f s = { clockStep g s with reported := (clockStep f s).reported } := by
  unfold clockStep
  cases s.clock.mode <;> rfl

theorem clockTick_failing (f g : Nat → Bool) (now : Rat) (s : State) :
    clockTick f now s = { clockTick g now s with reported := (clockTick f now s).reported } := by
  cases h : s.clock.tickFires now with
  | false => rw [clockTick_idle f h, clockTick_idle g h]
  | true =>
    cases hl : s.clock.level with
    | low => rw [clockTick_low f h hl, clockTick_low g h hl]
    | high => rw [clockTick_high f h hl, clockTick_high g h hl]

/-- Settles O59: the failing observers reach the report alone, which lists them edge by edge (`mem_failures`). -/
theorem failingObserversChangeNothing : Obligations.FailingObserversChangeNothing := by
  unfold Obligations.FailingObserversChangeNothing
  intro f g now s
  rw [clockTick_fired]
  refine ⟨by rw [clockStep_failing f g], by rw [clockStep_failing f g], by rw [clockTick_failing f g],
    by rw [clockTick_failing f g], fun hmode n => ?step, fun h hl n => ?low, fun h hl n => ?high⟩
  case step => rw [clockStep_manual f hmode, mem_failures, List.mem_append]
  case low => rw [clockTick_low f h hl, mem_failures]
  case high => rw [clockTick_high f h hl, mem_failures]

end Sys2Proof.Machine
end
